-- ==== Sys2Proof/Word.lean ====
section
/-! DEFINITION. The word types of chip8-Rust CORE (00_scope.md R6, R7; 30_encoding.md R81, R82). -/

namespace Sys2Proof

/-- A byte: a general register, a timer, a memory cell, an immediate `kk`, a random draw. -/
abbrev Byte := BitVec 8

/-- A 16-bit value: an instruction word, `PC`, `I`, a stack entry. -/
abbrev Word := BitVec 16

/-- A 12-bit address field `nnn` (R81). -/
abbrev Addr := BitVec 12

/-- A general register index; every value 0..15 is a valid register (R82). -/
abbrev Reg := Fin 16

/-- The 16 key flags of a keypad snapshot (10_state.md R29). -/
abbrev Keys := Vector Bool 16

end Sys2Proof
end

