-- ==== Sys2Proof/Syntax.lean ====
section
/-! DEFINITION. The 34 instructions of spec/opcode_table.json, one constructor a row, in the table's
order, each carrying only the operand fields it needs (30_encoding.md R84, R85). -/

namespace Sys2Proof

inductive Instr where
  /-- `00E0` CLS (R120). -/
  | cls
  /-- `00EE` RET (R121). -/
  | ret
  /-- `1nnn` JP nnn (R130). -/
  | jp (nnn : Addr)
  /-- `2nnn` CALL nnn (R131). -/
  | call (nnn : Addr)
  /-- `3xkk` SE Vx, kk (R140). -/
  | seImm (x : Reg) (kk : Byte)
  /-- `4xkk` SNE Vx, kk (R141). -/
  | sneImm (x : Reg) (kk : Byte)
  /-- `5xy0` SE Vx, Vy (R142). -/
  | seReg (x y : Reg)
  /-- `6xkk` LD Vx, kk (R150). -/
  | ldImm (x : Reg) (kk : Byte)
  /-- `7xkk` ADD Vx, kk (R160). -/
  | addImm (x : Reg) (kk : Byte)
  /-- `8xy0` LD Vx, Vy (R151). -/
  | ldReg (x y : Reg)
  /-- `8xy1` OR Vx, Vy (R170). -/
  | orReg (x y : Reg)
  /-- `8xy2` AND Vx, Vy (R171). -/
  | andReg (x y : Reg)
  /-- `8xy3` XOR Vx, Vy (R172). -/
  | xorReg (x y : Reg)
  /-- `8xy4` ADD Vx, Vy (R161). -/
  | addReg (x y : Reg)
  /-- `8xy5` SUB Vx, Vy (R162). -/
  | sub (x y : Reg)
  /-- `8xy6` SHR Vx; the `y` field is ignored (R173). -/
  | shr (x : Reg)
  /-- `8xy7` SUBN Vx, Vy (R163). -/
  | subn (x y : Reg)
  /-- `8xyE` SHL Vx; the `y` field is ignored (R174). -/
  | shl (x : Reg)
  /-- `9xy0` SNE Vx, Vy (R143). -/
  | sneReg (x y : Reg)
  /-- `Annn` LD I, nnn (R181). -/
  | ldI (nnn : Addr)
  /-- `Bnnn` JP V0, nnn (R183). -/
  | jpV0 (nnn : Addr)
  /-- `Cxkk` RND Vx, kk (R180). -/
  | rnd (x : Reg) (kk : Byte)
  /-- `Dxyn` DRW Vx, Vy, n: `n` is a count of sprite rows, 0..15 when well-formed (R190). -/
  | drw (x y : Reg) (n : Nat)
  /-- `Ex9E` SKP Vx (R200). -/
  | skp (x : Reg)
  /-- `ExA1` SKNP Vx (R201). -/
  | sknp (x : Reg)
  /-- `Fx07` LD Vx, DT (R204). -/
  | ldFromDT (x : Reg)
  /-- `Fx0A` LD Vx, K (R202). -/
  | ldK (x : Reg)
  /-- `Fx15` LD DT, Vx (R205). -/
  | ldDT (x : Reg)
  /-- `Fx18` LD ST, Vx (R206). -/
  | ldST (x : Reg)
  /-- `Fx1E` ADD I, Vx (R182). -/
  | addI (x : Reg)
  /-- `Fx29` LD F, Vx (R223). -/
  | ldF (x : Reg)
  /-- `Fx33` LD B, Vx (R220). -/
  | ldB (x : Reg)
  /-- `Fx55` LD [I], Vx (R221). -/
  | store (x : Reg)
  /-- `Fx65` LD Vx, [I] (R222). -/
  | load (x : Reg)
  deriving DecidableEq, Repr

end Sys2Proof
end

