-- ==== Sys2Proof/WellFormed.lean ====
section
/-! DEFINITION. Which terms of Instr the encoding admits (30_encoding.md R82). A register index, an
immediate and an address field are in range by their types; the row count of DRW is checked here. -/

namespace Sys2Proof

/-- `n` is an unsigned count 0..15 (R82); every other field is in range by its type. -/
def Instr.wf : Instr → Bool
  | .cls => true
  | .ret => true
  | .jp _ => true
  | .call _ => true
  | .seImm _ _ => true
  | .sneImm _ _ => true
  | .seReg _ _ => true
  | .ldImm _ _ => true
  | .addImm _ _ => true
  | .ldReg _ _ => true
  | .orReg _ _ => true
  | .andReg _ _ => true
  | .xorReg _ _ => true
  | .addReg _ _ => true
  | .sub _ _ => true
  | .shr _ => true
  | .subn _ _ => true
  | .shl _ => true
  | .sneReg _ _ => true
  | .ldI _ => true
  | .jpV0 _ => true
  | .rnd _ _ => true
  | .drw _ _ n => decide (n < 16)
  | .skp _ => true
  | .sknp _ => true
  | .ldFromDT _ => true
  | .ldK _ => true
  | .ldDT _ => true
  | .ldST _ => true
  | .addI _ => true
  | .ldF _ => true
  | .ldB _ => true
  | .store _ => true
  | .load _ => true

end Sys2Proof
end

