-- ==== Sys2Proof/Decode.lean ====
section
/-! DEFINITION. The fields of an instruction word, the decoder and the encoder (30_encoding.md R80 to R87). -/

namespace Sys2Proof

/-- Field `h = w[15:12]`, the leading nibble (R81). -/
def fieldH (w : Word) : BitVec 4 := w.extractLsb' 12 4

/-- A 4-bit field as a register index (R82). -/
def regOfBits (b : BitVec 4) : Reg := ⟨b.toNat, b.isLt⟩

/-- A register index as a 4-bit field (R82). -/
def bitsOfReg (x : Reg) : BitVec 4 := BitVec.ofNat 4 x.val

/-- Field `x = w[11:8]`, the first register index (R81). -/
def fieldX (w : Word) : Reg := regOfBits (w.extractLsb' 8 4)

/-- Field `y = w[7:4]`, the second register index (R81). -/
def fieldY (w : Word) : Reg := regOfBits (w.extractLsb' 4 4)

/-- Field `n = w[3:0]`, a count or a function selector (R81). -/
def fieldN (w : Word) : BitVec 4 := w.extractLsb' 0 4

/-- Field `kk = w[7:0]`, an immediate or a function selector (R81). -/
def fieldKK (w : Word) : Byte := w.extractLsb' 0 8

/-- Field `nnn = w[11:0]`, an address (R81). -/
def fieldNNN (w : Word) : Addr := w.extractLsb' 0 12

/-- Why bytes are no instruction: the families of illegal words of R86, and too few bytes. -/
inductive Illegal where
  /-- `0x0000`..`0x0FFF` other than `00E0` and `00EE`. -/
  | system
  /-- `5xyn` or `9xyn` with `n ≠ 0`. -/
  | compare
  /-- `8xyn` with an unlisted `n`. -/
  | arithmetic
  /-- `Exkk` with an unlisted `kk`. -/
  | key
  /-- `Fxkk` with an unlisted `kk`. -/
  | misc
  /-- Fewer than the two bytes every instruction has (R80). -/
  | truncated
  deriving DecidableEq, Repr

/-- The decode procedure, family by leading nibble (R84). -/
def decode (w : Word) : Except Illegal Instr :=
  match fieldH w with
  | 0x0#4 =>
    match w with
    | 0x00E0#16 => .ok .cls
    | 0x00EE#16 => .ok .ret
    | _ => .error .system
  | 0x1#4 => .ok (.jp (fieldNNN w))
  | 0x2#4 => .ok (.call (fieldNNN w))
  | 0x3#4 => .ok (.seImm (fieldX w) (fieldKK w))
  | 0x4#4 => .ok (.sneImm (fieldX w) (fieldKK w))
  | 0x5#4 =>
    match fieldN w with
    | 0x0#4 => .ok (.seReg (fieldX w) (fieldY w))
    | _ => .error .compare
  | 0x6#4 => .ok (.ldImm (fieldX w) (fieldKK w))
  | 0x7#4 => .ok (.addImm (fieldX w) (fieldKK w))
  | 0x8#4 =>
    match fieldN w with
    | 0x0#4 => .ok (.ldReg (fieldX w) (fieldY w))
    | 0x1#4 => .ok (.orReg (fieldX w) (fieldY w))
    | 0x2#4 => .ok (.andReg (fieldX w) (fieldY w))
    | 0x3#4 => .ok (.xorReg (fieldX w) (fieldY w))
    | 0x4#4 => .ok (.addReg (fieldX w) (fieldY w))
    | 0x5#4 => .ok (.sub (fieldX w) (fieldY w))
    | 0x6#4 => .ok (.shr (fieldX w))
    | 0x7#4 => .ok (.subn (fieldX w) (fieldY w))
    | 0xE#4 => .ok (.shl (fieldX w))
    | _ => .error .arithmetic
  | 0x9#4 =>
    match fieldN w with
    | 0x0#4 => .ok (.sneReg (fieldX w) (fieldY w))
    | _ => .error .compare
  | 0xA#4 => .ok (.ldI (fieldNNN w))
  | 0xB#4 => .ok (.jpV0 (fieldNNN w))
  | 0xC#4 => .ok (.rnd (fieldX w) (fieldKK w))
  | 0xD#4 => .ok (.drw (fieldX w) (fieldY w) (fieldN w).toNat)
  | 0xE#4 =>
    match fieldKK w with
    | 0x9E#8 => .ok (.skp (fieldX w))
    | 0xA1#8 => .ok (.sknp (fieldX w))
    | _ => .error .key
  | _ =>
    match fieldKK w with
    | 0x07#8 => .ok (.ldFromDT (fieldX w))
    | 0x0A#8 => .ok (.ldK (fieldX w))
    | 0x15#8 => .ok (.ldDT (fieldX w))
    | 0x18#8 => .ok (.ldST (fieldX w))
    | 0x1E#8 => .ok (.addI (fieldX w))
    | 0x29#8 => .ok (.ldF (fieldX w))
    | 0x33#8 => .ok (.ldB (fieldX w))
    | 0x55#8 => .ok (.store (fieldX w))
    | 0x65#8 => .ok (.load (fieldX w))
    | _ => .error .misc

/-- The word at two consecutive bytes, the first the high byte: `w = M[PC] ++ M[PC+1]` (R80). -/
def wordOfBytes (hi lo : Byte) : Word := hi ++ lo

/-- The high byte of a word, the one at the lower address (R80). -/
def highByte (w : Word) : Byte := w.extractLsb' 8 8

/-- The low byte of a word, the one at the higher address (R80). -/
def lowByte (w : Word) : Byte := w.extractLsb' 0 8

/-- The first instruction of a byte list and the bytes after it, on any bytes at all (R80). -/
def decodeBytes : List Byte → Except Illegal (Instr × List Byte)
  | hi :: lo :: rest =>
    match decode (wordOfBytes hi lo) with
    | .ok i => .ok (i, rest)
    | .error e => .error e
  | _ => .error .truncated

/-- Format `NNN`: `h nnn` (R83). -/
def packNNN (h : BitVec 4) (nnn : Addr) : Word := h ++ nnn

/-- Format `XKK`, and format `X` with `kk` the function selector: `h x kk` (R83). -/
def packXKK (h : BitVec 4) (x : Reg) (kk : Byte) : Word := h ++ bitsOfReg x ++ kk

/-- Formats `XY` and `XYN`: `h x y n` (R83). -/
def packXYN (h : BitVec 4) (x y : Reg) (n : BitVec 4) : Word := h ++ bitsOfReg x ++ bitsOfReg y ++ n

/-- The word of a well-formed instruction, by its row of R85. SHR and SHL ignore `y`; they are
encoded with `y = 0` (R83, log entry 9). -/
def encode : Instr → Word
  | .cls => 0x00E0
  | .ret => 0x00EE
  | .jp nnn => packNNN 0x1 nnn
  | .call nnn => packNNN 0x2 nnn
  | .seImm x kk => packXKK 0x3 x kk
  | .sneImm x kk => packXKK 0x4 x kk
  | .seReg x y => packXYN 0x5 x y 0x0
  | .ldImm x kk => packXKK 0x6 x kk
  | .addImm x kk => packXKK 0x7 x kk
  | .ldReg x y => packXYN 0x8 x y 0x0
  | .orReg x y => packXYN 0x8 x y 0x1
  | .andReg x y => packXYN 0x8 x y 0x2
  | .xorReg x y => packXYN 0x8 x y 0x3
  | .addReg x y => packXYN 0x8 x y 0x4
  | .sub x y => packXYN 0x8 x y 0x5
  | .shr x => packXYN 0x8 x 0 0x6
  | .subn x y => packXYN 0x8 x y 0x7
  | .shl x => packXYN 0x8 x 0 0xE
  | .sneReg x y => packXYN 0x9 x y 0x0
  | .ldI nnn => packNNN 0xA nnn
  | .jpV0 nnn => packNNN 0xB nnn
  | .rnd x kk => packXKK 0xC x kk
  | .drw x y n => packXYN 0xD x y (BitVec.ofNat 4 n)
  | .skp x => packXKK 0xE x 0x9E
  | .sknp x => packXKK 0xE x 0xA1
  | .ldFromDT x => packXKK 0xF x 0x07
  | .ldK x => packXKK 0xF x 0x0A
  | .ldDT x => packXKK 0xF x 0x15
  | .ldST x => packXKK 0xF x 0x18
  | .addI x => packXKK 0xF x 0x1E
  | .ldF x => packXKK 0xF x 0x29
  | .ldB x => packXKK 0xF x 0x33
  | .store x => packXKK 0xF x 0x55
  | .load x => packXKK 0xF x 0x65

/-- The bytes of an instruction as they lie in memory, big-endian (R80). -/
def encodeBytes (i : Instr) : List Byte := [highByte (encode i), lowByte (encode i)]

/-- The 16-bit word whose low `nbits` bits are those of `w` and whose other bits are 0. -/
def tableWord (nbits w : Nat) : Word := BitVec.ofNat 16 (w % 2 ^ nbits)

/-- What the decoder reads from an instruction whose bits are `w`, laid out as the hardware stores
it: high byte first (R80). -/
def decodeTableWord (nbits w : Nat) : Option Instr :=
  match decodeBytes [highByte (tableWord nbits w), lowByte (tableWord nbits w)] with
  | .ok (i, _) => some i
  | .error _ => none

end Sys2Proof
end

