-- ==== Sys2Proof/Config.lean ====
section
/-! DEFINITION. What the implementation fixes (00_scope.md R6), the events on the input ports
(60_exceptions.md R255) and the model's one free value, the environment. -/

namespace Sys2Proof

/-- `MEM_SIZE`, the bytes of memory (R6). -/
abbrev Config.memSize : Nat := 4096

/-- `PROG_BASE`, where the program image is loaded (R6). -/
abbrev Config.progBase : Nat := 0x200

/-- `START_ADDRESS`, the reset value of the program counter (R6, 10_state.md R24). -/
abbrev Config.startAddress : Word := 0x200

/-- One strobe on the input ports (R255), the unit in which the environment steps the core.
`instr_tick` and `timer_tick` are never acted on together (R250), so each is an event of its own. -/
inductive Event where
  /-- `instr_tick`, with the value on `keys_in` and the value on `rng_in` in this tick. -/
  | instrTick (keysIn : Keys) (rngIn : Byte)
  /-- `timer_tick`. -/
  | timerTick
  /-- `stop`, asserted between ticks (R257). -/
  | stop
  deriving DecidableEq, Repr, Inhabited

/-- FREE VALUE: the `n`-th event the environment chooses once the scheduled events are used up.
It has no body: the order of the ticks, the keys, the draws and the stop strobe are the
environment's (R250, R180, R254, R257; log entry 1). -/
opaque Config.environment : Nat → Event

end Sys2Proof
end

