-- ==== Sys2Proof/Machine/State.lean ====
section
/-! DEFINITION. The architectural state of 10_state.md as plain data, the reasons a step can stop, and
the machine right after reset. -/

namespace Sys2Proof.Machine

/-- The causes of a fatal error that an instruction tick can raise, codes 1 to 6 of
60_exceptions.md R240. -/
inductive ErrorKind where
  /-- Code 1, `DecodeError`: raised by decode. -/
  | decode
  /-- Code 2, `BoundsError.Memory`: raised by a data access. -/
  | memory
  /-- Code 3, `BoundsError.StackOverflow`: raised by CALL. -/
  | stackOverflow
  /-- Code 4, `BoundsError.StackUnderflow`: raised by RET. -/
  | stackUnderflow
  /-- Code 5, `BoundsError.KeyIndex`: raised by SKP and SKNP. -/
  | keyIndex
  /-- Code 6, `BoundsError.Fetch`: raised by the instruction fetch. -/
  | fetch
  deriving DecidableEq, Repr

/-- The extra field of a fault record: the last column of R240. -/
inductive ErrorInfo where
  /-- No field beyond `pc` and `word`. -/
  | none
  /-- `addr`, the first bad address of a data access. -/
  | addr (a : Nat)
  /-- `value`, the register value used as a key index. -/
  | value (v : Byte)
  deriving DecidableEq, Repr

/-- The record in `FAULT` (R241). Its `code` is a function of `kind` (`ErrorKind.code`, log entry 8). -/
structure FaultRecord where
  kind : ErrorKind
  /-- The address of the instruction whose fetch, decode or execution failed. -/
  pc : Word
  /-- The instruction word, absent for a fetch error. -/
  word : Option Word
  info : ErrorInfo
  deriving DecidableEq, Repr

/-- `RUN` (10_state.md R32). -/
inductive RunState where
  | running
  | stopped
  deriving DecidableEq, Repr

/-- A 64 by 32 pixel grid, `FB[x][y]` with column `x` first (10_state.md R28). -/
abbrev Frame := Vector (Vector Bool 32) 64

/-- A frame with every pixel off. -/
def Frame.clear : Frame := Vector.replicate 64 (Vector.replicate 32 false)

/-- Byte memory: the cells that differ from the construction contents, addresses strictly rising
(20_memory.md R60; `Memory.wf` and `Memory.initial` in Machine/Memory.lean). -/
abbrev Memory := List Host.Cell

/-- The architectural state (10_state.md R20), and last the model's own fields that carry the input
ports (60_exceptions.md R255). -/
structure State where
  /-- `V[0..15]` (R21); `VF` is the flag register (R22). -/
  v : Vector Byte 16
  /-- `I` (R23). -/
  i : Word
  /-- `PC` (R24). -/
  pc : Word
  /-- `S[0..15]` (R25). -/
  stack : Vector Word 16
  /-- `SP`, the entries in use, 0..16 (R26). -/
  sp : Fin 17
  /-- `DT` (R27). -/
  dt : Byte
  /-- `ST` (R27). -/
  st : Byte
  /-- `FB` (R28). -/
  fb : Frame
  /-- `FB_OUT` (R34). -/
  fbOut : Frame
  /-- `KEYS` (R29). -/
  keys : Keys
  /-- `KEYS_PREV` (R29). -/
  keysPrev : Keys
  /-- `AWAIT` (R30). -/
  awaiting : Option Reg
  /-- `FAULT` (R31). -/
  fault : Option FaultRecord
  /-- `RUN` (R32). -/
  run : RunState
  /-- `M` (R33). -/
  mem : Memory
  /-- Model's own: the strobes already scheduled on the input ports, next first (log entry 1). -/
  inputs : List Event
  /-- Model's own: how many events came from the free value `Config.environment` (log entry 1). -/
  freeTicks : Nat
  /-- Model's own: the value on `rng_in` in the current instruction tick (R180, log entry 2). -/
  rngIn : Byte
  deriving DecidableEq, Repr

/-- Why there is no next state. No step answers one: the fatal errors of codes 1 to 6 are next states
with `FAULT` set (60_exceptions.md R242, log entry 3). -/
inductive Fault where
  /-- Code 7, `LoadError`: answered by `construct` alone when the image is too long; no machine
  exists then (70_reset_and_hazards.md R281). Safe: the spec says the same. -/
  | loadError (length : Nat)
  deriving DecidableEq, Repr

/-- Why an instruction has no meaning. -/
inductive Refusal where
  /-- An arm of `exec` whose instruction has no meaning yet; no arm answers it. Safe. -/
  | notModelled (mnemonic : String)
  deriving DecidableEq, Repr

/-- The machine right after construction with an empty image (70_reset_and_hazards.md R280, R282).
The last three fields are the model's own (log entries 1, 2). -/
def State.reset : State where
  v := Vector.replicate 16 0
  i := 0
  pc := Config.startAddress
  stack := Vector.replicate 16 0
  sp := 0
  dt := 0
  st := 0
  fb := Frame.clear
  fbOut := Frame.clear
  keys := Vector.replicate 16 false
  keysPrev := Vector.replicate 16 false
  awaiting := none
  fault := none
  run := .running
  mem := []
  inputs := []
  freeTicks := 0
  rngIn := 0

end Sys2Proof.Machine
end

