-- ==== Sys2Proof/Machine/Memory.lean ====
section
/-! DEFINITION. The byte memory `M` (20_memory.md), its construction contents and the glyph table
(49_bcd_memory_glyph.md R224). -/

namespace Sys2Proof.Machine

/-- `FONT_BASE`, the address of the glyph table (00_scope.md R6, 92_eei_decisions.md D14). -/
def fontBase : Nat := 0x050

/-- `GLYPHS`, five bytes a hex digit, digit 0 first (R224). -/
def glyphs : List Byte :=
  [0xF0, 0x90, 0x90, 0x90, 0xF0, 0x20, 0x60, 0x20, 0x20, 0x70] ++
  [0xF0, 0x10, 0xF0, 0x80, 0xF0, 0xF0, 0x10, 0xF0, 0x10, 0xF0] ++
  [0x90, 0x90, 0xF0, 0x10, 0x10, 0xF0, 0x80, 0xF0, 0x10, 0xF0] ++
  [0xF0, 0x80, 0xF0, 0x90, 0xF0, 0xF0, 0x10, 0x20, 0x40, 0x40] ++
  [0xF0, 0x90, 0xF0, 0x90, 0xF0, 0xF0, 0x90, 0xF0, 0x10, 0xF0] ++
  [0xF0, 0x90, 0xF0, 0x90, 0x90, 0xE0, 0x90, 0xE0, 0x90, 0xE0] ++
  [0xF0, 0x80, 0x80, 0x80, 0xF0, 0xE0, 0x90, 0x90, 0x90, 0xE0] ++
  [0xF0, 0x80, 0xF0, 0x80, 0xF0, 0xF0, 0x80, 0xF0, 0x80, 0x80]

/-- What an unlisted address reads as: the construction contents with an empty image, the glyph
table at `FONT_BASE` and 0 elsewhere (10_state.md R33, 20_memory.md R67). -/
def Memory.initial (a : Nat) : Byte :=
  if fontBase ≤ a then glyphs.getD (a - fontBase) 0 else 0

/-- The byte at an address. Callers check the bound first (20_memory.md R61). -/
def Memory.read : Memory → Nat → Byte
  | [], a => Memory.initial a
  | c :: m, a => if c.1 = a then c.2 else Memory.read m a

/-- The memory without the cells of an address. -/
def Memory.erase : Memory → Nat → Memory
  | [], _ => []
  | c :: m, a => if c.1 = a then Memory.erase m a else c :: Memory.erase m a

/-- A cell put before the first cell of a higher address. -/
def Memory.insert : Memory → Host.Cell → Memory
  | [], c => [c]
  | d :: m, c => if c.1 < d.1 then c :: d :: m else d :: Memory.insert m c

/-- The memory with one byte written, in canonical form again. -/
def Memory.write (m : Memory) (a : Nat) (b : Byte) : Memory :=
  if b = Memory.initial a then Memory.erase m a else Memory.insert (Memory.erase m a) (a, b)

/-- Consecutive bytes written from an address on, the first at the lowest (20_memory.md R62). -/
def Memory.writeBytes (m : Memory) (a : Nat) : List Byte → Memory
  | [] => m
  | b :: bs => Memory.writeBytes (Memory.write m a b) (a + 1) bs

/-- The `n` bytes from an address on, the lowest first (20_memory.md R61). -/
def Memory.readBytes (m : Memory) (a : Nat) : Nat → List Byte
  | 0 => []
  | n + 1 => Memory.read m a :: Memory.readBytes m (a + 1) n

/-- No cell lies below address `lo`, and from there the canonical form holds. -/
def Memory.wfFrom (lo : Nat) : Memory → Bool
  | [] => true
  | c :: m => decide (lo ≤ c.1) && decide (c.1 < Config.memSize) && decide (c.2 ≠ Memory.initial c.1)
      && Memory.wfFrom (c.1 + 1) m

/-- The canonical form: addresses strictly rising and inside the memory, and no cell equal to what
its address reads as when unlisted. -/
def Memory.wf (m : Memory) : Bool := Memory.wfFrom 0 m

/-- Whether `n` bytes from an address on all lie inside the memory (R61). -/
def Memory.inBounds (a n : Nat) : Bool := decide (n = 0 ∨ a + n - 1 < Config.memSize)

/-- The first address of an out-of-bounds range that lies outside the memory (R61). -/
def Memory.firstBad (a : Nat) : Nat := max a Config.memSize

end Sys2Proof.Machine
end

