-- ==== Sys2Proof/Machine/Ops.lean ====
section
/-! DEFINITION. The named operations over registers, program counter, memory, frame buffer, keypad and
stack, and raising a fatal error: the only way the meanings touch State. -/

namespace Sys2Proof.Machine

/-- What a step answers. -/
abbrev Result := Host.Outcome State Fault Refusal

/-! ### Registers (10_state.md R21 to R23) -/

/-- Reads `V[x]` (R21). -/
def State.readV (s : State) (x : Reg) : Byte := s.v[x.val]

/-- Writes `V[x]` (R21); no register is hardwired. -/
def State.writeV (s : State) (x : Reg) (b : Byte) : State := { s with v := s.v.set x.val b }

/-- Writes `V[k], V[k+1], …` from a list; indices beyond 15 do not occur, since a block transfer
ends at `V[x]` (49_bcd_memory_glyph.md R222). -/
def State.writeVs (s : State) (k : Nat) : List Byte → State
  | [] => s
  | b :: bs => State.writeVs (if h : k < 16 then s.writeV ⟨k, h⟩ b else s) (k + 1) bs

/-- Writes `I` (R23). -/
def State.writeI (s : State) (a : Word) : State := { s with i := a }

/-! ### Program counter (10_state.md R24; 30_encoding.md R91, R92) -/

/-- `nextPC` set by the instruction itself. -/
def State.jump (s : State) (target : Word) : State := { s with pc := target }

/-- The default advance, `(PC + 2) mod 2^16` (R91). -/
def State.advance (s : State) : State := s.jump (s.pc + 2)

/-- A skip: `PC + 4` when the condition holds, else `PC + 2` (R92). -/
def State.skipIf (s : State) (c : Bool) : State := s.jump (s.pc + if c then 4 else 2)

/-! ### Fatal errors (60_exceptions.md R240 to R243) -/

/-- The code of an error kind (R240). -/
def ErrorKind.code : ErrorKind → Nat
  | .decode => 1
  | .memory => 2
  | .stackOverflow => 3
  | .stackUnderflow => 4
  | .keyIndex => 5
  | .fetch => 6

/-- The code of a load error (R240). -/
def Fault.code : Fault → Nat
  | .loadError _ => 7

/-- The state after a fatal error: `FAULT` takes the record with the instruction's address, and
nothing else changes (R241, R242, R243). -/
def State.raise (s : State) (kind : ErrorKind) (word : Option Word) (info : ErrorInfo) : State :=
  { s with fault := some { kind := kind, pc := s.pc, word := word, info := info } }

/-- A fatal error raised while an instruction executes; the record's word is the instruction's own
(R241, log entry 4). The halt is a next state (log entry 3). -/
def raiseIn (i : Instr) (kind : ErrorKind) (info : ErrorInfo) (s : State) : Result :=
  .next (s.raise kind (some (encode i)) info)

/-- The core is halted by a fatal error or stopped: no tick changes its state (R242, R257). -/
def State.frozen (s : State) : Bool := s.fault.isSome || decide (s.run = .stopped)

/-! ### Memory (20_memory.md R61, R62) -/

/-- `MemRead(addr, n)`: the bytes, or the first bad address (R61). -/
def State.memRead (s : State) (a n : Nat) : Except Nat (List Byte) :=
  if Memory.inBounds a n then .ok (s.mem.readBytes a n) else .error (Memory.firstBad a)

/-- `MemWrite(addr, n, bytes)` with `n` the list's length: the state with all bytes written, or the
first bad address and no byte written (R62). -/
def State.memWrite (s : State) (a : Nat) (bytes : List Byte) : Except Nat State :=
  if Memory.inBounds a bytes.length then .ok { s with mem := s.mem.writeBytes a bytes }
  else .error (Memory.firstBad a)

/-- The byte of `M` at an address. -/
def State.readByte (s : State) (a : Nat) : Byte := s.mem.read a

/-! ### Call stack (10_state.md R25, R26) -/

/-- Push: writes `S[SP]`, then increments `SP`; none when 16 entries are in use. -/
def State.push (s : State) (a : Word) : Option State :=
  if h : s.sp.val < 16 then
    some { s with stack := s.stack.set s.sp.val a, sp := ⟨s.sp.val + 1, by omega⟩ }
  else none

/-- Pop: decrements `SP`, then reads `S[SP]`, which keeps its value; none when the stack is empty. -/
def State.pop (s : State) : Option (Word × State) :=
  if h : 0 < s.sp.val then
    some (s.stack[s.sp.val - 1]'(by omega), { s with sp := ⟨s.sp.val - 1, by omega⟩ })
  else none

/-! ### Frame buffer (10_state.md R28; 47_draw.md R190) -/

/-- A pixel's coordinates, column then row. -/
abbrev Pixel := Fin 64 × Fin 32

/-- Reads `FB[x][y]`. -/
def Frame.get (f : Frame) (p : Pixel) : Bool := f[p.1.val][p.2.val]

/-- Toggles `FB[x][y]`. -/
def Frame.flip (f : Frame) (p : Pixel) : Frame :=
  f.set p.1.val (f[p.1.val].set p.2.val (!f.get p))

/-- XORs pixels one after another into a frame, noting whether any went from 1 to 0 (R190). -/
def Frame.flipAll (f : Frame) (erased : Bool) : List Pixel → Frame × Bool
  | [] => (f, erased)
  | p :: ps => Frame.flipAll (f.flip p) (erased || f.get p) ps

/-! ### Keypad (10_state.md R29; 48_input_timer.md R203) -/

/-- `KEYS[k]`. -/
def Keys.pressed (ks : Keys) (k : Fin 16) : Bool := ks[k.val]

/-- The 16 key numbers, lowest first. -/
def allKeys : List (Fin 16) := [0, 1, 2, 3, 4, 5, 6, 7, 8, 9, 10, 11, 12, 13, 14, 15]

/-- The keypad snapshot latch at the start of an instruction tick, and the tick's draw on `rng_in`
(30_encoding.md R90). -/
def State.latch (s : State) (keysIn : Keys) (rngIn : Byte) : State :=
  { s with keysPrev := s.keys, keys := keysIn, rngIn := rngIn }

/-- The lowest-numbered key that went to pressed between the two snapshots (R203). -/
def State.newKey (s : State) : Option (Fin 16) :=
  allKeys.find? fun k => Keys.pressed s.keys k && !Keys.pressed s.keysPrev k

/-! ### Events (60_exceptions.md R250, R255) -/

/-- The next event on the ports: the next scheduled one, else the environment's free choice; and the
state with it taken (log entry 1). -/
def State.takeEvent (s : State) : Event × State :=
  match s.inputs with
  | e :: es => (e, { s with inputs := es })
  | [] => (Config.environment s.freeTicks, { s with freeTicks := s.freeTicks + 1 })

end Sys2Proof.Machine
end

