-- ==== Sys2Proof/Machine/Operands.lean ====
section
/-! DEFINITION. The operand forms (30_encoding.md R82) and the operand values the families compute:
addresses, glyph addresses, decimal digits, register runs and sprite pixels. -/

namespace Sys2Proof.Machine

/-- `zext_16(nnn)` (R82). -/
def addrOf (nnn : Addr) : Word := nnn.setWidth 16

/-- `zext_16(V[x])`, for address arithmetic (46_random_addr.md R182, R183). -/
def State.readV16 (s : State) (x : Reg) : Word := (s.readV x).setWidth 16

/-- `I` as a memory address. -/
def State.indexAddr (s : State) : Nat := s.i.toNat

/-- `FONT_BASE + 5 * d` with `d` the low nibble (49_bcd_memory_glyph.md R223). -/
def glyphAddr (b : Byte) : Word := BitVec.ofNat 16 (fontBase + 5 * (b &&& 0x0F).toNat)

/-- The three decimal digits, hundreds first (49_bcd_memory_glyph.md R220). -/
def decimalDigits (b : Byte) : List Byte := [b / 100, (b / 10) % 10, b % 10]

/-- `V[k], …, V[k + n - 1]` (49_bcd_memory_glyph.md R221). -/
def State.readVs (s : State) (k : Nat) : Nat → List Byte
  | 0 => []
  | n + 1 => (if h : k < 16 then s.readV ⟨k, h⟩ else 0) :: State.readVs s (k + 1) n

/-- `I` past a block of `x + 1` bytes, `(I + x + 1) mod 2^16` (R221, R222). -/
def State.indexPast (s : State) (x : Reg) : Word := s.i + BitVec.ofNat 16 (x.val + 1)

/-- The pixel of sprite row `r` and column `c` drawn at `(cx, cy)`, wrapped on both axes
(47_draw.md R190). -/
def spritePixel (cx cy : Byte) (r c : Nat) : Pixel :=
  (Fin.ofNat 64 (cx.toNat + c), Fin.ofNat 32 (cy.toNat + r))

/-- The pixels of the 1 bits of one sprite row, leftmost first: bit 7 is the leftmost (R191). -/
def rowPixels (cx cy : Byte) (r : Nat) (row : Byte) : List Pixel :=
  ([0, 1, 2, 3, 4, 5, 6, 7].filter fun c => row.getLsbD (7 - c)).map (spritePixel cx cy r)

/-- The pixels of a sprite's 1 bits in drawing order, rows from `r` on, top row first (R190, R191). -/
def spritePixels (cx cy : Byte) (r : Nat) : List Byte → List Pixel
  | [] => []
  | row :: rows => rowPixels cx cy r row ++ spritePixels cx cy (r + 1) rows

end Sys2Proof.Machine
end

