-- ==== Sys2Proof/Machine/Flags.lean ====
section
/-! DEFINITION. The flag register VF and every flag computation (10_state.md R22): carry, not borrow,
the bit shifted out, collision. -/

namespace Sys2Proof.Machine

/-- The index of VF (R22). -/
abbrev flagReg : Reg := 15

/-- A flag as VF holds it: 1 or 0. -/
def flagByte (c : Bool) : Byte := if c then 1 else 0

/-- Carry of an addition: `a + b > 255` (44_arith.md R161). -/
def carry (a b : Byte) : Bool := decide (255 < a.toNat + b.toNat)

/-- Not borrow of `a - b`: `a ≥ b` (44_arith.md R162, R163). -/
def notBorrow (a b : Byte) : Bool := decide (b.toNat ≤ a.toNat)

/-- The bit a right shift by one drops (45_bitwise_shift.md R173). -/
def outRight (a : Byte) : Bool := a.getLsbD 0

/-- The bit a left shift by one drops (45_bitwise_shift.md R174). -/
def outLeft (a : Byte) : Bool := a.getLsbD 7

/-- Writes VF. -/
def State.writeFlag (s : State) (c : Bool) : State := s.writeV flagReg (flagByte c)

/-- Writes the result to `V[x]` and then the flag to VF, so that VF ends holding the flag when
`x = 0xF` (92_eei_decisions.md D6). -/
def State.writeResultFlag (s : State) (x : Reg) (result : Byte) (c : Bool) : State :=
  (s.writeV x result).writeFlag c

end Sys2Proof.Machine
end

