-- ==== Sys2Proof/Machine/Arith.lean ====
section
/-! DEFINITION. The arithmetic family: unsigned, modulo 256, operands read before the flag is written (44_arith.md). -/

namespace Sys2Proof.Machine

/-- ADD Vx, kk: no flag change (R160). -/
def execAddImm (x : Reg) (kk : Byte) (s : State) : Result :=
  .next (s.writeV x (s.readV x + kk)).advance

/-- ADD Vx, Vy: VF is the carry, written last (R161). -/
def execAddReg (x y : Reg) (s : State) : Result :=
  let a := s.readV x
  let b := s.readV y
  .next (s.writeResultFlag x (a + b) (carry a b)).advance

/-- SUB Vx, Vy: VF is 1 when `V[x] ≥ V[y]`, written last (R162). -/
def execSub (x y : Reg) (s : State) : Result :=
  let a := s.readV x
  let b := s.readV y
  .next (s.writeResultFlag x (a - b) (notBorrow a b)).advance

/-- SUBN Vx, Vy: `V[y] - V[x]`; VF is 1 when `V[y] ≥ V[x]`, written last (R163). -/
def execSubn (x y : Reg) (s : State) : Result :=
  let a := s.readV x
  let b := s.readV y
  .next (s.writeResultFlag x (b - a) (notBorrow b a)).advance

end Sys2Proof.Machine
end

