-- ==== Sys2Proof/Machine/Bitwise.lean ====
section
/-! DEFINITION. The bitwise and shift family (45_bitwise_shift.md). -/

namespace Sys2Proof.Machine

/-- OR Vx, Vy: no flag side effect (R170). -/
def execOrReg (x y : Reg) (s : State) : Result :=
  .next (s.writeV x (s.readV x ||| s.readV y)).advance

/-- AND Vx, Vy: no flag side effect (R171). -/
def execAndReg (x y : Reg) (s : State) : Result :=
  .next (s.writeV x (s.readV x &&& s.readV y)).advance

/-- XOR Vx, Vy: no flag side effect (R172). -/
def execXorReg (x y : Reg) (s : State) : Result :=
  .next (s.writeV x (s.readV x ^^^ s.readV y)).advance

/-- SHR Vx: VF is the old bit 0, written last (R173). -/
def execShr (x : Reg) (s : State) : Result :=
  let a := s.readV x
  .next (s.writeResultFlag x (a >>> 1) (outRight a)).advance

/-- SHL Vx: VF is the old bit 7, written last (R174). -/
def execShl (x : Reg) (s : State) : Result :=
  let a := s.readV x
  .next (s.writeResultFlag x (a <<< 1) (outLeft a)).advance

end Sys2Proof.Machine
end

