-- ==== Sys2Proof/Machine/Block.lean ====
section
/-! DEFINITION. BCD, register block transfer and glyph address (49_bcd_memory_glyph.md). -/

namespace Sys2Proof.Machine

/-- LD B, Vx: three decimal digits at `I`, `I + 1`, `I + 2`, hundreds first; `I` is not changed (R220). -/
def execLdB (x : Reg) (s : State) : Result :=
  match s.memWrite s.indexAddr (decimalDigits (s.readV x)) with
  | .ok s' => .next s'.advance
  | .error a => raiseIn (.ldB x) .memory (.addr a) s

/-- LD [I], Vx: stores `V[0]` to `V[x]` and moves `I` past them (R221). -/
def execStore (x : Reg) (s : State) : Result :=
  match s.memWrite s.indexAddr (s.readVs 0 (x.val + 1)) with
  | .ok s' => .next (s'.writeI (s.indexPast x)).advance
  | .error a => raiseIn (.store x) .memory (.addr a) s

/-- LD Vx, [I]: loads `V[0]` to `V[x]` and moves `I` past them (R222). -/
def execLoad (x : Reg) (s : State) : Result :=
  match s.memRead s.indexAddr (x.val + 1) with
  | .ok bytes => .next ((s.writeVs 0 bytes).writeI (s.indexPast x)).advance
  | .error a => raiseIn (.load x) .memory (.addr a) s

/-- LD F, Vx: the glyph address of the low nibble; no memory access (R223). -/
def execLdF (x : Reg) (s : State) : Result :=
  .next (s.writeI (glyphAddr (s.readV x))).advance

end Sys2Proof.Machine
end

