-- ==== Sys2Proof/Machine/Cond.lean ====
section
/-! DEFINITION. The conditional-skip family (42_cond.md). -/

namespace Sys2Proof.Machine

/-- SE Vx, kk: skips when `V[x] = kk` (R140). -/
def execSeImm (x : Reg) (kk : Byte) (s : State) : Result :=
  .next (s.skipIf (s.readV x == kk))

/-- SNE Vx, kk: skips when `V[x] ≠ kk` (R141). -/
def execSneImm (x : Reg) (kk : Byte) (s : State) : Result :=
  .next (s.skipIf (s.readV x != kk))

/-- SE Vx, Vy: skips when `V[x] = V[y]` (R142). -/
def execSeReg (x y : Reg) (s : State) : Result :=
  .next (s.skipIf (s.readV x == s.readV y))

/-- SNE Vx, Vy: skips when `V[x] ≠ V[y]` (R143). -/
def execSneReg (x y : Reg) (s : State) : Result :=
  .next (s.skipIf (s.readV x != s.readV y))

end Sys2Proof.Machine
end

