-- ==== Sys2Proof/Machine/Draw.lean ====
section
/-! DEFINITION. The draw family (47_draw.md). -/

namespace Sys2Proof.Machine

/-- DRW Vx, Vy, n: XORs `n` sprite rows from `I` into `FB`, both axes wrapping; VF is 1 when a pixel
went from 1 to 0, written after every pixel (R190). -/
def execDrw (x y : Reg) (n : Nat) (s : State) : Result :=
  match s.memRead s.indexAddr n with
  | .ok rows =>
    let drawn := s.fb.flipAll false (spritePixels (s.readV x) (s.readV y) 0 rows)
    .next ({ s with fb := drawn.1 }.writeFlag drawn.2).advance
  | .error a => raiseIn (.drw x y n) .memory (.addr a) s

end Sys2Proof.Machine
end

