-- ==== Sys2Proof/Machine/Flow.lean ====
section
/-! DEFINITION. The flow family: absolute jump and call (41_flow.md). -/

namespace Sys2Proof.Machine

/-- JP nnn: an odd target is legal; no increment after (R130). -/
def execJp (nnn : Addr) (s : State) : Result :=
  .next (s.jump (addrOf nnn))

/-- CALL nnn: pushes the address of the CALL plus 2, then jumps; overflow is fatal (R131). -/
def execCall (nnn : Addr) (s : State) : Result :=
  match s.push (s.pc + 2) with
  | some s' => .next (s'.jump (addrOf nnn))
  | none => raiseIn (.call nnn) .stackOverflow .none s

end Sys2Proof.Machine
end

