-- ==== Sys2Proof/Machine/Index.lean ====
section
/-! DEFINITION. Random, index register and jump with offset (46_random_addr.md). -/

namespace Sys2Proof.Machine

/-- RND Vx, kk: the tick's draw on `rng_in`, masked (R180). The draw is the environment's: no value
of it is fixed anywhere (log entry 2). -/
def execRnd (x : Reg) (kk : Byte) (s : State) : Result :=
  .next (s.writeV x (s.rngIn &&& kk)).advance

/-- LD I, nnn (R181). -/
def execLdI (nnn : Addr) (s : State) : Result :=
  .next (s.writeI (addrOf nnn)).advance

/-- ADD I, Vx: modulo 2^16, VF not written (R182). -/
def execAddI (x : Reg) (s : State) : Result :=
  .next (s.writeI (s.i + s.readV16 x)).advance

/-- JP V0, nnn: `V[0] + nnn`, no mask; the offset register is always V0 (R183). -/
def execJpV0 (nnn : Addr) (s : State) : Result :=
  .next (s.jump (s.readV16 0 + addrOf nnn))

end Sys2Proof.Machine
end

