-- ==== Sys2Proof/Machine/InputTimer.lean ====
section
/-! DEFINITION. The input and timer families (48_input_timer.md). -/

namespace Sys2Proof.Machine

/-- SKP Vx: skips when key `V[x]` is pressed in this tick's snapshot; `V[x] > 15` is fatal (R200). -/
def execSkp (x : Reg) (s : State) : Result :=
  let k := s.readV x
  if h : k.toNat < 16 then .next (s.skipIf (Keys.pressed s.keys ⟨k.toNat, h⟩))
  else raiseIn (.skp x) .keyIndex (.value k) s

/-- SKNP Vx: skips when key `V[x]` is not pressed; `V[x] > 15` is fatal (R201). -/
def execSknp (x : Reg) (s : State) : Result :=
  let k := s.readV x
  if h : k.toNat < 16 then .next (s.skipIf (!Keys.pressed s.keys ⟨k.toNat, h⟩))
  else raiseIn (.sknp x) .keyIndex (.value k) s

/-- LD Vx, K: enters awaiting-key mode; `PC` stays until the wait is resolved (R202). -/
def execLdK (x : Reg) (s : State) : Result :=
  .next { s with awaiting := some x }

/-- The awaiting-key check of an instruction tick: the lowest key that went to pressed goes to
`V[x]`, the mode ends and `PC` moves past the LD Vx, K; with no such key nothing changes (R203). -/
def State.awaitCheck (s : State) (x : Reg) : State :=
  match s.newKey with
  | some k => { s.writeV x (BitVec.ofNat 8 k.val) with awaiting := none }.advance
  | none => s

/-- LD Vx, DT (R204). -/
def execLdFromDT (x : Reg) (s : State) : Result :=
  .next (s.writeV x s.dt).advance

/-- LD DT, Vx (R205). -/
def execLdDT (x : Reg) (s : State) : Result :=
  .next { s with dt := s.readV x }.advance

/-- LD ST, Vx (R206). -/
def execLdST (x : Reg) (s : State) : Result :=
  .next { s with st := s.readV x }.advance

end Sys2Proof.Machine
end

