-- ==== Sys2Proof/Machine/Load.lean ====
section
/-! DEFINITION. The register load family (43_load.md). -/

namespace Sys2Proof.Machine

/-- LD Vx, kk (R150). -/
def execLdImm (x : Reg) (kk : Byte) (s : State) : Result :=
  .next (s.writeV x kk).advance

/-- LD Vx, Vy (R151). -/
def execLdReg (x y : Reg) (s : State) : Result :=
  .next (s.writeV x (s.readV y)).advance

end Sys2Proof.Machine
end

