-- ==== Sys2Proof/Machine/System.lean ====
section
/-! DEFINITION. The system family, leading nibble 0x0 (40_system.md). -/

namespace Sys2Proof.Machine

/-- CLS: every pixel of `FB` off; `FB_OUT` is not touched (R120). -/
def execCls (s : State) : Result :=
  .next { s with fb := Frame.clear }.advance

/-- RET: pops the return address into `PC`, with no implicit advance; underflow is fatal (R121). -/
def execRet (s : State) : Result :=
  match s.pop with
  | some (target, s') => .next (s'.jump target)
  | none => raiseIn .ret .stackUnderflow .none s

end Sys2Proof.Machine
end

