-- ==== Sys2Proof/Machine/Tick.lean ====
section
/-! DEFINITION. The instruction tick (30_encoding.md R90), the timer tick (60_exceptions.md R249), the
shutdown (R257), and the placing of one instruction for the very next tick. -/

namespace Sys2Proof.Machine

/-- The word at `PC`, big-endian, or none when the two bytes do not lie inside the memory; `PC + 1`
is a natural, with no wrap (R80, R90). -/
def State.fetch (s : State) : Option Word :=
  if s.pc.toNat + 1 < Config.memSize then
    some (wordOfBytes (s.readByte s.pc.toNat) (s.readByte (s.pc.toNat + 1)))
  else none

/-- Fetch, decode, execute; the errors in that order (R90, R244). -/
def fetchExecute (s : State) : Result :=
  match s.fetch with
  | none => .next (s.raise .fetch none .none)
  | some w =>
    match decode w with
    | .error _ => .next (s.raise .decode (some w) .none)
    | .ok i => exec i s

/-- One instruction tick: nothing when halted or stopped; else the keypad latch, then the
awaiting-key check or the instruction at `PC` (R90). -/
def instrTick (keysIn : Keys) (rngIn : Byte) (s : State) : Result :=
  if s.frozen then .next s
  else
    match s.awaiting with
    | some x => .next ((s.latch keysIn rngIn).awaitCheck x)
    | none => fetchExecute (s.latch keysIn rngIn)

/-- A counter one lower, clamped at 0 (10_state.md R27). -/
def countDown (b : Byte) : Byte := if b = 0 then 0 else b - 1

/-- One timer tick: nothing when halted or stopped; else both timers count down and the display
output takes the frame buffer (R249, R253). -/
def timerTick (s : State) : State :=
  if s.frozen then s else { s with dt := countDown s.dt, st := countDown s.st, fbOut := s.fb }

/-- The shutdown strobe (R257). -/
def shutdown (s : State) : State := { s with run := .stopped }

/-- What an event on the ports does (R250, R255). -/
def react : Event → State → Result
  | .instrTick keysIn rngIn, s => instrTick keysIn rngIn s
  | .timerTick, s => .next (timerTick s)
  | .stop, s => .next (shutdown s)

/-- One step of the core: the next event on the ports, acted on as one atomic step (R250). -/
def tick (s : State) : Result := react s.takeEvent.1 s.takeEvent.2

/-- `PC`, or `START_ADDRESS` where no instruction fits at `PC`. -/
def State.placePC (s : State) : Word :=
  if s.pc.toNat + 1 < Config.memSize then s.pc else Config.startAddress

/-- The state with a word stored where the next instruction is fetched, running, not halted, not
awaiting a key, and with an instruction tick (keys and draw as they are) scheduled as the very next
event, so that the next step runs that word (log entry 7). -/
def State.place (s : State) (w : Word) : State :=
  { s with
    pc := s.placePC
    mem := s.mem.writeBytes s.placePC.toNat [highByte w, lowByte w]
    awaiting := none
    fault := none
    run := .running
    inputs := .instrTick s.keys s.rngIn :: s.inputs }

end Sys2Proof.Machine
end

