-- ==== Sys2Proof/Machine/Step.lean ====
section
/-! DEFINITION. The step of the core and the placing of the instruction it runs next; both only call
operations of Machine/Tick.lean. -/

namespace Sys2Proof.Machine

/-- One step: the next event on the ports (60_exceptions.md R250). -/
def step (s : State) : Host.Outcome State Fault Refusal := tick s

/-- `s` with the instruction whose bits are `w` stored where the next step fetches, and that step's
instruction tick scheduled (log entry 7). -/
def State.withFetchWord (s : State) (nbits w : Nat) : State := s.place (tableWord nbits w)

end Sys2Proof.Machine
end

