-- ==== Sys2Proof/Machine/Construct.lean ====
section
/-! DEFINITION. Construction, the only reset (70_reset_and_hazards.md R280 to R282). -/

namespace Sys2Proof.Machine

/-- The longest image that fits, `MEM_SIZE - 0x200` (R281). -/
def maxImage : Nat := Config.memSize - Config.progBase

/-- Construction from an entry address and a program image: every field zeroed, the glyph table and
the image placed; a longer image is a load error and there is no machine (R280, R281). -/
def construct (startAddress : Word) (image : List Byte) : Result :=
  if image.length ≤ maxImage then
    .next { State.reset with
      pc := startAddress
      mem := Memory.writeBytes [] Config.progBase image }
  else .fault (.loadError image.length)

end Sys2Proof.Machine
end

