-- ==== Sys2Proof/Machine/Ports.lean ====
section
/-! DEFINITION. The output ports as functions of the state (60_exceptions.md R252 to R255). -/

namespace Sys2Proof.Machine

/-- `audio_on`: 1 exactly when `ST ≠ 0`, `FAULT = none` and `RUN = running` (R252). -/
def State.audioOn (s : State) : Bool := decide (s.st ≠ 0) && !s.frozen

/-- `awaiting` (R255). -/
def State.isAwaiting (s : State) : Bool := s.awaiting.isSome

/-- `halted` (R242, R255). -/
def State.halted (s : State) : Bool := s.fault.isSome

/-- The output ports (R255). `load_error` is `Fault.loadError`, answered by construction. -/
structure Outputs where
  frameOut : Frame
  audioOn : Bool
  awaiting : Bool
  halted : Bool
  fault : Option FaultRecord
  deriving DecidableEq, Repr

/-- What the ports show after a tick (R255). -/
def State.outputs (s : State) : Outputs :=
  { frameOut := s.fbOut, audioOn := s.audioOn, awaiting := s.isAwaiting, halted := s.halted, fault := s.fault }

end Sys2Proof.Machine
end

