-- ==== Sys2Proof/Safety.lean ====
section
/-! DEFINITION. The terms claims use: a live machine, what two states share (frames), and the invariant
every step keeps. -/

namespace Sys2Proof.Machine

/-- Running and not halted: the ticks act (30_encoding.md R90, 70_reset_and_hazards.md R289). -/
def State.live (s : State) : Prop := s.fault = none ∧ s.run = .running

/-- One addressable part of the state. -/
inductive Part where
  | v (x : Reg)
  | i
  | pc
  | stack (k : Fin 16)
  | sp
  | dt
  | st
  | pixel (p : Pixel)
  | framePixel (p : Pixel)
  | keys
  | keysPrev
  | awaiting
  | fault
  | run
  | byte (a : Nat)
  | inputs
  | freeTicks
  | rngIn
  deriving DecidableEq, Repr

/-- A part holds the same in two states; memory is compared byte by byte, as it reads. -/
def Part.same : Part → State → State → Prop
  | .v x, s, t => t.readV x = s.readV x
  | .i, s, t => t.i = s.i
  | .pc, s, t => t.pc = s.pc
  | .stack k, s, t => t.stack[k.val] = s.stack[k.val]
  | .sp, s, t => t.sp = s.sp
  | .dt, s, t => t.dt = s.dt
  | .st, s, t => t.st = s.st
  | .pixel p, s, t => t.fb.get p = s.fb.get p
  | .framePixel p, s, t => t.fbOut.get p = s.fbOut.get p
  | .keys, s, t => t.keys = s.keys
  | .keysPrev, s, t => t.keysPrev = s.keysPrev
  | .awaiting, s, t => t.awaiting = s.awaiting
  | .fault, s, t => t.fault = s.fault
  | .run, s, t => t.run = s.run
  | .byte a, s, t => t.readByte a = s.readByte a
  | .inputs, s, t => t.inputs = s.inputs
  | .freeTicks, s, t => t.freeTicks = s.freeTicks
  | .rngIn, s, t => t.rngIn = s.rngIn

/-- The frame: every part outside the list is the same in both states. -/
def SameExcept (parts : List Part) (s t : State) : Prop := ∀ p : Part, p ∉ parts → p.same s t

/-- The model's own fields that carry the input ports (log entries 1, 2). -/
def portParts : List Part := [.inputs, .freeTicks, .rngIn]

/-- The bytes of `M` from an address on. -/
def byteParts (a n : Nat) : List Part := (List.range n).map fun k => .byte (a + k)

/-- Registers `V[0]` to `V[x]`. -/
def regPartsTo (x : Reg) : List Part := (allKeys.filter fun k => decide (k ≤ x)).map .v

/-- A fatal error and nothing else: the record is in `FAULT`, every other part is as before
(60_exceptions.md R241, R242, R243). -/
def HaltsWith (o : Result) (s : State) (kind : ErrorKind) (word : Option Word) (info : ErrorInfo) : Prop :=
  ∃ t, o = .next t ∧ t.fault = some { kind := kind, pc := s.pc, word := word, info := info } ∧
    SameExcept [.fault] s t

/-- Pixel `p` lies under a 1 bit of the `n`-row sprite at `I` drawn at `(V[x], V[y])`, both axes
wrapped, bit 7 leftmost (47_draw.md R190, R191). -/
def SpriteCovers (s : State) (x y : Reg) (n : Nat) (p : Pixel) : Prop :=
  ∃ r c, r < n ∧ c < 8 ∧ (s.readByte (s.i.toNat + r)).getLsbD (7 - c) = true ∧
    p.1.val = ((s.readV x).toNat + c) % 64 ∧ p.2.val = ((s.readV y).toNat + r) % 32

/-- A fault record tells the truth about the halted machine: `PC` still holds its address, memory
there its word, and the cause it names is there to be seen (60_exceptions.md R240, R241, R243). -/
structure FaultRecord.Tells (r : FaultRecord) (s : State) : Prop where
  pc : r.pc = s.pc
  word : r.word = s.fetch
  awaiting : s.awaiting = none
  decode : r.kind = .decode → ∃ w e, s.fetch = some w ∧ decode w = .error e
  memory : r.kind = .memory → r.info = .addr (Memory.firstBad s.indexAddr)
  stackOverflow : r.kind = .stackOverflow → s.sp = 16
  stackUnderflow : r.kind = .stackUnderflow → s.sp = 0
  keyIndex : r.kind = .keyIndex → ∃ x, r.info = .value (s.readV x) ∧ 15 < (s.readV x).toNat
  fetch : r.kind = .fetch → Config.memSize ≤ s.pc.toNat + 1

/-- The invariant every step keeps: memory is in canonical form, the program counter and the return
addresses stay where no addition wraps (30_encoding.md R93), an awaiting core stands on a fetched
word, and the fault record tells the truth. -/
structure State.Inv (s : State) : Prop where
  mem : s.mem.wf = true
  pc : s.pc.toNat ≤ 0x10FE
  stack : ∀ k : Fin 16, s.stack[k.val].toNat ≤ Config.memSize
  awaiting : ∀ x, s.awaiting = some x → s.pc.toNat + 1 < Config.memSize
  fault : ∀ r, s.fault = some r → r.Tells s

end Sys2Proof.Machine
end

