-- ==== Sys2Proof/Certificates/Slice0/Obligations.lean ====
section
/-! DEFINITION. What is claimed of the machine, each from the numbered rules of spec/ it names. -/

open Sys2Proof Sys2Proof.Machine

/-! ### Encoding and decoding (30_encoding.md) -/

/-- Decoding the word, or the bytes, of any well-formed instruction gives it back with every operand,
and leaves the bytes after it (R80 to R85). -/
def Obligations.DecodeEncodeEveryInstruction : Prop :=
  ∀ i : Instr, i.wf = true →
    decode (encode i) = .ok i ∧
    ∀ rest : List Byte, decodeBytes (encodeBytes i ++ rest) = .ok (i, rest)

/-- Every word that decodes gives a well-formed instruction whose own word it is; only for SHR and SHL
is the ignored `y` field lost (R81, R83, R85). -/
def Obligations.EncodeDecodeEveryLegalWord : Prop :=
  ∀ (w : Word) (i : Instr), decode w = .ok i →
    i.wf = true ∧
    ((encode i = w) ∨
      ((∃ x, i = .shr x ∨ i = .shl x) ∧ encode i = w &&& 0xFF0F))

/-- The illegal words are exactly the five families of R86. -/
def Obligations.IllegalWordsExactly : Prop :=
  ∀ w : Word, (∃ e, decode w = .error e) ↔
    ((w.toNat ≤ 0x0FFF ∧ w ≠ 0x00E0 ∧ w ≠ 0x00EE) ∨
     ((fieldH w = 0x5 ∨ fieldH w = 0x9) ∧ fieldN w ≠ 0x0) ∨
     (fieldH w = 0x8 ∧ fieldN w ∈ [0x8, 0x9, 0xA, 0xB, 0xC, 0xD, 0xF]) ∨
     (fieldH w = 0xE ∧ fieldKK w ∉ [0x9E, 0xA1]) ∨
     (fieldH w = 0xF ∧ fieldKK w ∉ [0x07, 0x0A, 0x15, 0x18, 0x1E, 0x29, 0x33, 0x55, 0x65]))

/-- Words written out in the spec's encodings read as the instructions they stand for (R85). -/
def Obligations.SpecWordsDecode : Prop :=
  decode 0x6005 = .ok (.ldImm 0 0x05) ∧ decode 0x7003 = .ok (.addImm 0 0x03) ∧
  decode 0xD4A7 = .ok (.drw 4 0xA 7) ∧ decode 0xA2F0 = .ok (.ldI 0x2F0) ∧
  decode 0x8AB6 = .ok (.shr 0xA) ∧ decode 0xF429 = .ok (.ldF 4)

/-! ### The step, the ticks and the events -/

/-- The next event is the next scheduled one, and when none is scheduled the environment's own free
choice, a different one each time; nothing else of the state moves (R250; log entry 1). -/
def Obligations.EventsComeFromTheEnvironment : Prop :=
  ∀ s : State,
    (∀ e es, s.inputs = e :: es → s.takeEvent = (e, { s with inputs := es })) ∧
    (s.inputs = [] →
      s.takeEvent = (Config.environment s.freeTicks, { s with freeTicks := s.freeTicks + 1 }))

/-- When the next event is an instruction tick of a live core that awaits no key, and the two bytes at
`PC` decode to `i`, the step is `exec i` after the keypad latch of the tick (R80, R90). -/
def Obligations.StepRunsTheDecodedInstruction : Prop :=
  ∀ (s s' : State) (ks : Keys) (r : Byte) (i : Instr),
    s.live → s.awaiting = none → s.takeEvent = (.instrTick ks r, s') →
    s.pc.toNat + 1 < Config.memSize →
    decode (s.readByte s.pc.toNat ++ s.readByte (s.pc.toNat + 1)) = .ok i →
    step s = exec i { s' with keysPrev := s.keys, keys := ks, rngIn := r }

/-- The instruction tick, case by case in the order of R90. -/
def Obligations.InstructionTickOrder : Prop :=
  ∀ (s : State) (ks : Keys) (r : Byte),
    (¬ s.live → instrTick ks r s = .next s) ∧
    (s.live →
      let u : State := { s with keysPrev := s.keys, keys := ks, rngIn := r }
      (∀ x, s.awaiting = some x → instrTick ks r s = .next (u.awaitCheck x)) ∧
      (s.awaiting = none →
        (Config.memSize ≤ s.pc.toNat + 1 → HaltsWith (instrTick ks r s) u .fetch none .none) ∧
        (s.pc.toNat + 1 < Config.memSize →
          let w : Word := s.readByte s.pc.toNat ++ s.readByte (s.pc.toNat + 1)
          (∀ e, decode w = .error e → HaltsWith (instrTick ks r s) u .decode (some w) .none) ∧
          (∀ i, decode w = .ok i → instrTick ks r s = exec i u))))

/-- No step stops: every instruction, and every event on the ports, in every state, leads to a next
state (R87, R90, R242, R249, R257; log entry 3). -/
def Obligations.StepAlwaysAnswersNext : Prop :=
  (∀ (i : Instr) (s : State), ∃ t, exec i s = .next t) ∧ ∀ s : State, ∃ t, step s = .next t

/-- Every step keeps the invariant: canonical memory, a program counter and return addresses below
any wrap, a truthful fault record (R33, R60, R93, R241, R243). -/
def Obligations.StepKeepsInvariant : Prop :=
  ∀ s t : State, s.Inv → step s = .next t → t.Inv

/-- The state right after reset meets the invariant. -/
def Obligations.ResetMeetsInvariant : Prop := State.reset.Inv

/-- A live core whose instruction tick ends with a fatal error has changed nothing but `FAULT` and the
keypad latch; the record names the tick's `PC` and the word there (R241, R243). -/
def Obligations.FatalErrorsArePrecise : Prop :=
  ∀ (s t : State) (ks : Keys) (r : Byte), s.live → instrTick ks r s = .next t → t.fault ≠ none →
    SameExcept [.fault, .keys, .keysPrev, .rngIn] s t ∧ t.keys = ks ∧ t.keysPrev = s.keys ∧
    ∃ rec, t.fault = some rec ∧ rec.pc = s.pc ∧ rec.word = s.fetch ∧
      (rec.word = none ↔ rec.kind = .fetch)

/-- A halted or stopped core stays as it is for good, whatever the ports do: only the `stop` strobe
can still reach `RUN`, and the audio output is off (R242, R257). That it reaches a halted core is the
model's reading (DEDUCED, log entry 10). -/
def Obligations.HaltedOrStoppedForGood : Prop :=
  ∀ (n : Nat) (s : State), ¬ s.live →
    ∃ t, Sys2Proof.core.run n s = .next t ∧ SameExcept [.run, .inputs, .freeTicks] s t ∧
      (s.run = .stopped → t.run = .stopped) ∧ ¬ t.live ∧ t.audioOn = false

/-- The `stop` strobe sets `RUN` to stopped and nothing else, and writes no `FAULT`; from then on no
event changes any state, and the audio output is 0 (R257). That it sets `RUN` also in a core halted by a
fatal error is the model's reading (DEDUCED, log entry 10; R259 calls the halted state frozen). -/
def Obligations.StopStopsBetweenTicks : Prop :=
  ∀ (s : State) (es : List Event), s.inputs = .stop :: es →
    ∃ t, step s = .next t ∧ t.run = .stopped ∧ t.inputs = es ∧ SameExcept [.run, .inputs] s t ∧
      t.outputs.audioOn = false ∧
      ∀ n, ∃ u, Sys2Proof.core.run n t = .next u ∧ SameExcept [.inputs, .freeTicks] t u ∧
        u.outputs.audioOn = false

/-- The keypad is latched by every instruction tick of a live core, whatever instruction it runs, and
by no other event (R29, R254). -/
def Obligations.KeypadLatchedEachInstructionTick : Prop :=
  (∀ (s t : State) (ks : Keys) (r : Byte), s.live → instrTick ks r s = .next t →
    t.keys = ks ∧ t.keysPrev = s.keys) ∧
  (∀ (s t : State) (e : Event), (e = .timerTick ∨ e = .stop) → react e s = .next t →
    t.keys = s.keys ∧ t.keysPrev = s.keysPrev)

/-! ### Timers, display and audio (60_exceptions.md) -/

/-- The timer tick: both timers one lower, clamped at 0, and the display output takes the frame
buffer; nothing when halted or stopped (R249, R253). -/
def Obligations.TimerTickCountsDownAndRefreshes : Prop :=
  ∀ s : State,
    (s.live →
      (timerTick s).dt.toNat = s.dt.toNat - 1 ∧ (timerTick s).st.toNat = s.st.toNat - 1 ∧
      (timerTick s).fbOut = s.fb ∧
      ∀ p, p ∉ [Part.dt, .st] → (∀ q, p ≠ .framePixel q) → p.same s (timerTick s)) ∧
    (¬ s.live → timerTick s = s)

/-- After `n` timer ticks in a row each timer is `n` lower or 0, the core still awaits what it awaited,
and every other part but the display output is as before (R249, R251). -/
def Obligations.TimersReachZeroAndStay : Prop :=
  ∀ (n : Nat) (s : State) (es : List Event), s.live → s.inputs = List.replicate n .timerTick ++ es →
    ∃ t, Sys2Proof.core.run n s = .next t ∧ t.inputs = es ∧
      t.dt.toNat = s.dt.toNat - n ∧ t.st.toNat = s.st.toNat - n ∧ t.awaiting = s.awaiting ∧
      (0 < n → t.fbOut = s.fb) ∧
      ∀ p, p ∉ [Part.dt, .st, .inputs] → (∀ q, p ≠ .framePixel q) → p.same s t

/-- While a key is awaited the timer tick still counts down and the wait goes on (R251). -/
def Obligations.TimersRunDuringAWait : Prop :=
  ∀ (s : State) (x : Reg) (es : List Event), s.live → s.awaiting = some x →
    s.inputs = .timerTick :: es →
    ∃ t, step s = .next t ∧ t.awaiting = some x ∧ t.pc = s.pc ∧
      t.dt.toNat = s.dt.toNat - 1 ∧ t.st.toNat = s.st.toNat - 1

/-- `audio_on` is 1 exactly when `ST ≠ 0` and the core runs; it follows LD ST, Vx and the timer
tick (R252). -/
def Obligations.AudioFollowsSoundTimer : Prop :=
  (∀ s : State, s.outputs.audioOn = true ↔ s.st ≠ 0 ∧ s.fault = none ∧ s.run = .running) ∧
  (∀ (s : State) (x : Reg), s.live →
    ∃ t, exec (.ldST x) s = .next t ∧ (t.outputs.audioOn = true ↔ s.readV x ≠ 0)) ∧
  (∀ s : State, s.live → ((timerTick s).outputs.audioOn = true ↔ 1 < s.st.toNat))

/-- No instruction reads or writes `FB_OUT`; none reads `ST` or `KEYS_PREV`: with another value there
each does the same to everything else (R27, R29, R34). -/
def Obligations.OutputLatchesAreUnread : Prop :=
  ∀ (i : Instr) (s t : State), exec i s = .next t →
    (∀ f : Frame, exec i { s with fbOut := f } = .next { t with fbOut := f }) ∧
    (∀ ks : Keys, exec i { s with keysPrev := ks } = .next { t with keysPrev := ks }) ∧
    (∀ b : Byte, exec i { s with st := b } = .next { t with st := b } ∨
      ((∃ x, i = .ldST x) ∧ exec i { s with st := b } = .next t))

/-! ### Which instructions write what -/

/-- `VF` changes only under the six flag-writing instructions, or as an instruction's named
destination (10_state.md R22). -/
def Obligations.FlagRegisterWriters : Prop :=
  ∀ (i : Instr) (s t : State), exec i s = .next t → t.readV 0xF ≠ s.readV 0xF →
    (∃ x y, i = .addReg x y ∨ i = .sub x y ∨ i = .subn x y ∨ i = .shr x ∨ i = .shl x ∨
      ∃ n, i = .drw x y n) ∨
    (∃ kk, i = .ldImm 0xF kk ∨ i = .addImm 0xF kk ∨ i = .rnd 0xF kk) ∨
    (∃ y, i = .ldReg 0xF y ∨ i = .orReg 0xF y ∨ i = .andReg 0xF y ∨ i = .xorReg 0xF y) ∨
    i = .ldFromDT 0xF ∨ i = .load 0xF

/-- `I`, the call stack, the timers, the frame buffer and the awaiting-key mode change only under the
instructions their rules name; `FB_OUT`, the keypad latch and `RUN` under none
(10_state.md R23, R25 to R30, R32, R34). -/
def Obligations.SpecialStateWriters : Prop :=
  ∀ (i : Instr) (s t : State), exec i s = .next t →
    (t.i ≠ s.i → ∃ x nnn, i = .ldI nnn ∨ i = .addI x ∨ i = .ldF x ∨ i = .store x ∨ i = .load x) ∧
    (t.stack ≠ s.stack → ∃ nnn, i = .call nnn) ∧
    (t.sp ≠ s.sp → i = .ret ∨ ∃ nnn, i = .call nnn) ∧
    (t.dt ≠ s.dt → ∃ x, i = .ldDT x) ∧
    (t.st ≠ s.st → ∃ x, i = .ldST x) ∧
    (t.fb ≠ s.fb → i = .cls ∨ ∃ x y n, i = .drw x y n) ∧
    (t.awaiting ≠ s.awaiting → ∃ x, i = .ldK x) ∧
    t.fbOut = s.fbOut ∧ t.keys = s.keys ∧ t.keysPrev = s.keysPrev ∧ t.run = s.run

/-- A byte of memory changes only under LD B and LD [I], and only inside the bytes each stores, which
start at `I`; no timer tick or stop touches memory (20_memory.md R65, R69). -/
def Obligations.MemoryWriters : Prop :=
  (∀ (i : Instr) (s t : State) (a : Nat), exec i s = .next t → t.readByte a ≠ s.readByte a →
    ((∃ x, i = .ldB x) ∧ s.i.toNat ≤ a ∧ a ≤ s.i.toNat + 2) ∨
    (∃ x, i = .store x ∧ s.i.toNat ≤ a ∧ a ≤ s.i.toNat + x.val)) ∧
  (∀ (s : State) (a : Nat),
    (timerTick s).readByte a = s.readByte a ∧ (shutdown s).readByte a = s.readByte a)

/-! ### Memory (20_memory.md) -/

/-- `MemRead(addr, n)` gives the `n` bytes when all lie inside the memory, else the first address that
does not; no bytes are always inside (R61). -/
def Obligations.MemReadIsChecked : Prop :=
  ∀ (s : State) (a n : Nat),
    ((n = 0 ∨ a + n - 1 < Config.memSize) →
      ∃ bs, s.memRead a n = .ok bs ∧ bs.length = n ∧ ∀ k, k < n → bs[k]? = some (s.readByte (a + k))) ∧
    (0 < n → Config.memSize ≤ a + n - 1 →
      ∃ bad, s.memRead a n = .error bad ∧ a ≤ bad ∧ bad ≤ a + n - 1 ∧ Config.memSize ≤ bad ∧
        ∀ b, a ≤ b → b < bad → b < Config.memSize)

/-- `MemWrite` writes every byte of the list at consecutive addresses when all lie inside the memory,
and no other byte or part; else it writes none and gives the first bad address (R62). -/
def Obligations.MemWriteIsChecked : Prop :=
  ∀ (s : State) (a : Nat) (bs : List Byte),
    ((bs.length = 0 ∨ a + bs.length - 1 < Config.memSize) →
      ∃ t, s.memWrite a bs = .ok t ∧ (∀ k, k < bs.length → bs[k]? = some (t.readByte (a + k))) ∧
        SameExcept (byteParts a bs.length) s t) ∧
    (0 < bs.length → Config.memSize ≤ a + bs.length - 1 →
      ∃ bad, s.memWrite a bs = .error bad ∧ a ≤ bad ∧ bad ≤ a + bs.length - 1 ∧ Config.memSize ≤ bad ∧
        ∀ b, a ≤ b → b < bad → b < Config.memSize)

/-- Two canonical memories that read alike everywhere are the same data (R60; log entry 5). -/
def Obligations.CanonicalMemoryIsUnique : Prop :=
  ∀ m m' : Memory, m.wf = true → m'.wf = true → (∀ a, m.read a = m'.read a) → m = m'

/-- What LD [I], Vx stores is what the very next fetch there sees, high byte first (R63, R72). -/
def Obligations.StoredBytesAreFetched : Prop :=
  ∀ (s : State) (x : Reg), 0 < x.val → s.i.toNat + x.val < Config.memSize → s.i = s.pc + 2 →
    ∃ t, exec (.store x) s = .next t ∧ t.fetch = some (s.readV 0 ++ s.readV 1)

/-! ### Construction (70_reset_and_hazards.md) -/

/-- Construction: every field zeroed but the program counter, the glyph table at 0x050, the image at
0x200, every other byte 0 (R280). -/
def Obligations.ConstructionPlacesTheImage : Prop :=
  ∀ (start : Word) (image : List Byte), image.length ≤ 4096 - 0x200 →
    ∃ s, construct start image = .next s ∧ s.pc = start ∧
      (∀ k, k < image.length → image[k]? = some (s.readByte (0x200 + k))) ∧
      (∀ d, d < 80 → glyphs[d]? = some (s.readByte (0x050 + d))) ∧
      (∀ a, a < 4096 → (a < 0x050 ∨ (0x0A0 ≤ a ∧ a < 0x200) ∨ 0x200 + image.length ≤ a) → s.readByte a = 0) ∧
      (∀ x, s.readV x = 0) ∧ s.i = 0 ∧ (∀ k : Fin 16, s.stack[k.val] = 0) ∧ s.sp = 0 ∧ s.dt = 0 ∧ s.st = 0 ∧
      (∀ p, s.fb.get p = false) ∧ (∀ p, s.fbOut.get p = false) ∧
      (∀ k : Fin 16, s.keys[k.val] = false) ∧ (∀ k : Fin 16, s.keysPrev[k.val] = false) ∧
      s.awaiting = none ∧ s.fault = none ∧ s.run = .running

/-- A longer image is a load error of code 7 and there is no machine; with an empty image the machine
is the reset state, whose first instruction tick finds the illegal word 0x0000 (R281). -/
def Obligations.LoadErrorBeforeAnyTick : Prop :=
  (∀ (start : Word) (image : List Byte), 4096 - 0x200 < image.length →
    construct start image = .fault (.loadError image.length) ∧ (Fault.loadError image.length).code = 7) ∧
  construct 0x200 [] = .next State.reset ∧
  (∀ (ks : Keys) (r : Byte),
    HaltsWith (instrTick ks r State.reset) (State.reset.latch ks r) .decode (some 0x0000) .none)

/-- After any construction the 80 glyph bytes stand at 0x050, glyph `d` at `0x050 + 5 * d` (R224). -/
def Obligations.GlyphTableIsPreloaded : Prop :=
  ∀ (start : Word) (image : List Byte) (s : State), construct start image = .next s →
    s.mem.readBytes 0x050 80 =
      [0xF0, 0x90, 0x90, 0x90, 0xF0, 0x20, 0x60, 0x20, 0x20, 0x70, 0xF0, 0x10, 0xF0, 0x80, 0xF0,
       0xF0, 0x10, 0xF0, 0x10, 0xF0, 0x90, 0x90, 0xF0, 0x10, 0x10, 0xF0, 0x80, 0xF0, 0x10, 0xF0,
       0xF0, 0x80, 0xF0, 0x90, 0xF0, 0xF0, 0x10, 0x20, 0x40, 0x40, 0xF0, 0x90, 0xF0, 0x90, 0xF0,
       0xF0, 0x90, 0xF0, 0x10, 0xF0, 0xF0, 0x90, 0xF0, 0x90, 0x90, 0xE0, 0x90, 0xE0, 0x90, 0xE0,
       0xF0, 0x80, 0x80, 0x80, 0xF0, 0xE0, 0x90, 0x90, 0x90, 0xE0, 0xF0, 0x80, 0xF0, 0x80, 0xF0,
       0xF0, 0x80, 0xF0, 0x80, 0x80]

/-! ### System and flow (40_system.md, 41_flow.md) -/

/-- CLS: every pixel of `FB` 0, `FB_OUT` untouched, VF not written (R120). -/
def Obligations.ClsClearsTheFrame : Prop :=
  decode 0x00E0 = .ok .cls ∧
  ∀ s : State, ∃ t, exec .cls s = .next t ∧ (∀ p, t.fb.get p = false) ∧ t.pc = s.pc + 2 ∧
    ∀ p : Part, p ≠ .pc → (∀ q, p ≠ .pixel q) → p.same s t

/-- RET: `SP` one lower and `PC` from that entry, which keeps its value; an entry with no room for a
fetch halts at the next instruction tick; an empty stack is a fatal underflow (R121). -/
def Obligations.RetPopsTheStack : Prop :=
  decode 0x00EE = .ok .ret ∧
  ∀ s : State,
    (∀ k : Fin 16, s.sp.val = k.val + 1 →
      ∃ t, exec .ret s = .next t ∧ t.sp.val = k.val ∧ t.pc = s.stack[k.val] ∧ SameExcept [.sp, .pc] s t ∧
        ∀ (ks : Keys) (r : Byte), s.live → s.awaiting = none → Config.memSize ≤ s.stack[k.val].toNat + 1 →
          HaltsWith (instrTick ks r t) (t.latch ks r) .fetch none .none) ∧
    (s.sp.val = 0 → HaltsWith (exec .ret s) s .stackUnderflow (some 0x00EE) .none)

/-- JP nnn: `PC` is the target, odd or not; a target with no room for a fetch halts at the next
instruction tick (R130). -/
def Obligations.JpJumps : Prop :=
  ∀ nnn : Addr, decode (0x1#4 ++ nnn) = .ok (.jp nnn) ∧
    ∀ s : State, ∃ t, exec (.jp nnn) s = .next t ∧ t.pc.toNat = nnn.toNat ∧ SameExcept [.pc] s t ∧
      ∀ (ks : Keys) (r : Byte), s.live → s.awaiting = none → Config.memSize ≤ nnn.toNat + 1 →
        HaltsWith (instrTick ks r t) (t.latch ks r) .fetch none .none

/-- CALL nnn: the address of the CALL plus 2 in `S[SP]`, `SP` one higher, `PC` at the target; a full
stack is a fatal overflow (R131). -/
def Obligations.CallPushesTheReturnAddress : Prop :=
  ∀ nnn : Addr, decode (0x2#4 ++ nnn) = .ok (.call nnn) ∧
    ∀ s : State,
      (∀ k : Fin 16, s.sp.val = k.val →
        ∃ t, exec (.call nnn) s = .next t ∧ t.stack[k.val] = s.pc + 2 ∧ t.sp.val = k.val + 1 ∧
          t.pc.toNat = nnn.toNat ∧ SameExcept [.stack k, .sp, .pc] s t) ∧
      (s.sp.val = 16 → HaltsWith (exec (.call nnn) s) s .stackOverflow (some (0x2#4 ++ nnn)) .none)

/-- A RET right after a CALL goes back to the instruction after the call with the stack pointer as it
was before (R121, R131). -/
def Obligations.RetUndoesCall : Prop :=
  ∀ (s : State) (nnn : Addr), s.sp.val < 16 →
    ∃ t u, exec (.call nnn) s = .next t ∧ exec .ret t = .next u ∧ u.pc = s.pc + 2 ∧ u.sp = s.sp ∧
      ∀ p : Part, p ≠ .pc → (∀ k, p = .stack k → k.val ≠ s.sp.val) → p.same s u

/-! ### Compare and skip (42_cond.md) -/

/-- The four compare-skips: `PC + 4` when the comparison holds, else `PC + 2`, and nothing else
(R140 to R143). -/
def Obligations.CompareSkips : Prop :=
  (∀ (x : Reg) (kk : Byte),
    decode (packXKK 0x3 x kk) = .ok (.seImm x kk) ∧ decode (packXKK 0x4 x kk) = .ok (.sneImm x kk)) ∧
  (∀ x y : Reg,
    decode (packXYN 0x5 x y 0x0) = .ok (.seReg x y) ∧ decode (packXYN 0x9 x y 0x0) = .ok (.sneReg x y) ∧
    ∀ n : BitVec 4, n ≠ 0 →
      (∃ e, decode (packXYN 0x5 x y n) = .error e) ∧ ∃ e, decode (packXYN 0x9 x y n) = .error e) ∧
  ∀ s : State,
    (∀ (x : Reg) (kk : Byte),
      (∃ t, exec (.seImm x kk) s = .next t ∧ SameExcept [.pc] s t ∧
        (s.readV x = kk → t.pc = s.pc + 4) ∧ (s.readV x ≠ kk → t.pc = s.pc + 2)) ∧
      (∃ t, exec (.sneImm x kk) s = .next t ∧ SameExcept [.pc] s t ∧
        (s.readV x ≠ kk → t.pc = s.pc + 4) ∧ (s.readV x = kk → t.pc = s.pc + 2))) ∧
    (∀ x y : Reg,
      (∃ t, exec (.seReg x y) s = .next t ∧ SameExcept [.pc] s t ∧
        (s.readV x = s.readV y → t.pc = s.pc + 4) ∧ (s.readV x ≠ s.readV y → t.pc = s.pc + 2)) ∧
      (∃ t, exec (.sneReg x y) s = .next t ∧ SameExcept [.pc] s t ∧
        (s.readV x ≠ s.readV y → t.pc = s.pc + 4) ∧ (s.readV x = s.readV y → t.pc = s.pc + 2)))

/-! ### Loads (43_load.md) -/

/-- LD Vx, kk and LD Vx, Vy write `V[x]` and nothing else, VF among the destinations (R150, R151). -/
def Obligations.RegisterLoads : Prop :=
  (∀ (x : Reg) (kk : Byte), decode (packXKK 0x6 x kk) = .ok (.ldImm x kk) ∧
    ∀ s : State, ∃ t, exec (.ldImm x kk) s = .next t ∧ t.readV x = kk ∧ t.pc = s.pc + 2 ∧
      SameExcept [.v x, .pc] s t) ∧
  (∀ x y : Reg, decode (packXYN 0x8 x y 0x0) = .ok (.ldReg x y) ∧
    ∀ s : State, ∃ t, exec (.ldReg x y) s = .next t ∧ t.readV x = s.readV y ∧ t.pc = s.pc + 2 ∧
      SameExcept [.v x, .pc] s t)

/-! ### Arithmetic (44_arith.md) -/

/-- ADD Vx, kk: the sum modulo 256, no flag (R160). -/
def Obligations.AddImmediateWraps : Prop :=
  ∀ (x : Reg) (kk : Byte), decode (packXKK 0x7 x kk) = .ok (.addImm x kk) ∧
    ∀ s : State, ∃ t, exec (.addImm x kk) s = .next t ∧
      (t.readV x).toNat = ((s.readV x).toNat + kk.toNat) % 256 ∧ t.pc = s.pc + 2 ∧
      SameExcept [.v x, .pc] s t

/-- ADD Vx, Vy: the sum modulo 256, VF the carry of the old operands, written last (R161). -/
def Obligations.AddRegisterCarries : Prop :=
  ∀ x y : Reg, decode (packXYN 0x8 x y 0x4) = .ok (.addReg x y) ∧
    ∀ s : State, ∃ t, exec (.addReg x y) s = .next t ∧
      (x ≠ 0xF → (t.readV x).toNat = ((s.readV x).toNat + (s.readV y).toNat) % 256) ∧
      (t.readV 0xF).toNat = (if (s.readV x).toNat + (s.readV y).toNat > 255 then 1 else 0) ∧
      t.pc = s.pc + 2 ∧ SameExcept [.v x, .v 0xF, .pc] s t

/-- SUB Vx, Vy: the difference modulo 256, VF 1 when `V[x] ≥ V[y]`, written last (R162). -/
def Obligations.SubtractReportsNotBorrow : Prop :=
  ∀ x y : Reg, decode (packXYN 0x8 x y 0x5) = .ok (.sub x y) ∧
    ∀ s : State, ∃ t, exec (.sub x y) s = .next t ∧
      (x ≠ 0xF → ((t.readV x).toNat : Int) = ((s.readV x).toNat - (s.readV y).toNat : Int) % 256) ∧
      (t.readV 0xF).toNat = (if (s.readV x).toNat ≥ (s.readV y).toNat then 1 else 0) ∧
      t.pc = s.pc + 2 ∧ SameExcept [.v x, .v 0xF, .pc] s t

/-- SUBN Vx, Vy: `V[y] - V[x]` modulo 256, VF 1 when `V[y] ≥ V[x]`, written last (R163). -/
def Obligations.ReverseSubtractReportsNotBorrow : Prop :=
  ∀ x y : Reg, decode (packXYN 0x8 x y 0x7) = .ok (.subn x y) ∧
    ∀ s : State, ∃ t, exec (.subn x y) s = .next t ∧
      (x ≠ 0xF → ((t.readV x).toNat : Int) = ((s.readV y).toNat - (s.readV x).toNat : Int) % 256) ∧
      (t.readV 0xF).toNat = (if (s.readV y).toNat ≥ (s.readV x).toNat then 1 else 0) ∧
      t.pc = s.pc + 2 ∧ SameExcept [.v x, .v 0xF, .pc] s t

/-! ### Bitwise and shifts (45_bitwise_shift.md) -/

/-- OR, AND, XOR: bit by bit into `V[x]`, VF not written but as the destination (R170 to R172). -/
def Obligations.BitwiseLeavesTheFlag : Prop :=
  ∀ x y : Reg,
    decode (packXYN 0x8 x y 0x1) = .ok (.orReg x y) ∧ decode (packXYN 0x8 x y 0x2) = .ok (.andReg x y) ∧
    decode (packXYN 0x8 x y 0x3) = .ok (.xorReg x y) ∧
    ∀ s : State,
      (∃ t, exec (.orReg x y) s = .next t ∧ t.pc = s.pc + 2 ∧ SameExcept [.v x, .pc] s t ∧
        ∀ b, (t.readV x).getLsbD b = ((s.readV x).getLsbD b || (s.readV y).getLsbD b)) ∧
      (∃ t, exec (.andReg x y) s = .next t ∧ t.pc = s.pc + 2 ∧ SameExcept [.v x, .pc] s t ∧
        ∀ b, (t.readV x).getLsbD b = ((s.readV x).getLsbD b && (s.readV y).getLsbD b)) ∧
      (∃ t, exec (.xorReg x y) s = .next t ∧ t.pc = s.pc + 2 ∧ SameExcept [.v x, .pc] s t ∧
        ∀ b, (t.readV x).getLsbD b = ((s.readV x).getLsbD b != (s.readV y).getLsbD b))

/-- SHR Vx: half of `V[x]`, VF the bit shifted out, written last; the `y` field is ignored (R173). -/
def Obligations.ShiftRightDropsBitZero : Prop :=
  ∀ x : Reg, (∀ y : Reg, decode (packXYN 0x8 x y 0x6) = .ok (.shr x)) ∧
    ∀ s : State, ∃ t, exec (.shr x) s = .next t ∧
      (x ≠ 0xF → (t.readV x).toNat = (s.readV x).toNat / 2) ∧
      (t.readV 0xF).toNat = (s.readV x).toNat % 2 ∧
      t.pc = s.pc + 2 ∧ SameExcept [.v x, .v 0xF, .pc] s t

/-- SHL Vx: twice `V[x]` modulo 256, VF the bit shifted out, written last; `y` is ignored (R174). -/
def Obligations.ShiftLeftDropsBitSeven : Prop :=
  ∀ x : Reg, (∀ y : Reg, decode (packXYN 0x8 x y 0xE) = .ok (.shl x)) ∧
    ∀ s : State, ∃ t, exec (.shl x) s = .next t ∧
      (x ≠ 0xF → (t.readV x).toNat = (s.readV x).toNat * 2 % 256) ∧
      (t.readV 0xF).toNat = (s.readV x).toNat / 128 ∧
      t.pc = s.pc + 2 ∧ SameExcept [.v x, .v 0xF, .pc] s t

/-! ### Random, index register, jump with offset (46_random_addr.md) -/

/-- RND Vx, kk as a step: whatever byte the environment puts on `rng_in` in this tick, `V[x]` takes
its bits under the mask (R180; log entry 2). -/
def Obligations.RandomIsTheTicksDraw : Prop :=
  ∀ (x : Reg) (kk : Byte), decode (packXKK 0xC x kk) = .ok (.rnd x kk) ∧
    (∀ s : State, ∃ t, exec (.rnd x kk) s = .next t ∧ t.readV x = s.rngIn &&& kk ∧ t.pc = s.pc + 2 ∧
      SameExcept [.v x, .pc] s t) ∧
    ∀ (s : State) (ks : Keys) (r : Byte) (es : List Event),
      s.live → s.awaiting = none → s.inputs = .instrTick ks r :: es → s.pc.toNat + 1 < Config.memSize →
      s.readByte s.pc.toNat ++ s.readByte (s.pc.toNat + 1) = packXKK 0xC x kk →
      ∃ t, step s = .next t ∧ t.readV x = r &&& kk ∧ t.pc = s.pc + 2 ∧
        SameExcept [.v x, .pc, .keys, .keysPrev, .rngIn, .inputs] s t

/-- LD I, nnn loads 12 bits, upper bits 0; ADD I, Vx adds modulo 2^16 and leaves VF (R181, R182). -/
def Obligations.IndexRegisterWrites : Prop :=
  (∀ nnn : Addr, decode (packNNN 0xA nnn) = .ok (.ldI nnn) ∧
    ∀ s : State, ∃ t, exec (.ldI nnn) s = .next t ∧ t.i.toNat = nnn.toNat ∧ t.pc = s.pc + 2 ∧
      SameExcept [.i, .pc] s t) ∧
  (∀ x : Reg, decode (packXKK 0xF x 0x1E) = .ok (.addI x) ∧
    ∀ s : State, ∃ t, exec (.addI x) s = .next t ∧
      t.i.toNat = (s.i.toNat + (s.readV x).toNat) % 65536 ∧ t.pc = s.pc + 2 ∧ SameExcept [.i, .pc] s t)

/-- JP V0, nnn: `V[0] + nnn` with no mask and no wrap; a target with no room for a fetch halts at the
next instruction tick (R183). -/
def Obligations.JumpOffsetAddsV0 : Prop :=
  ∀ nnn : Addr, decode (packNNN 0xB nnn) = .ok (.jpV0 nnn) ∧
    ∀ s : State, ∃ t, exec (.jpV0 nnn) s = .next t ∧ t.pc.toNat = (s.readV 0).toNat + nnn.toNat ∧
      SameExcept [.pc] s t ∧
      ∀ (ks : Keys) (r : Byte), s.live → s.awaiting = none →
        Config.memSize ≤ (s.readV 0).toNat + nnn.toNat + 1 →
        HaltsWith (instrTick ks r t) (t.latch ks r) .fetch none .none

/-! ### Draw (47_draw.md) -/

/-- DRW Vx, Vy, n: exactly the pixels under a 1 bit of the sprite toggle, both axes wrapped; VF is 1
when one of them was on, else 0; a sprite beyond the memory is fatal and draws nothing (R190, R191). -/
def Obligations.DrawTogglesTheSprite : Prop :=
  ∀ (x y : Reg) (n : Nat), n < 16 → decode (packXYN 0xD x y (BitVec.ofNat 4 n)) = .ok (.drw x y n) ∧
    ∀ s : State,
      ((n = 0 ∨ s.i.toNat + n - 1 < Config.memSize) →
        ∃ t, exec (.drw x y n) s = .next t ∧ t.pc = s.pc + 2 ∧
          (∀ p, SpriteCovers s x y n p → t.fb.get p = !s.fb.get p) ∧
          (∀ p, ¬ SpriteCovers s x y n p → t.fb.get p = s.fb.get p) ∧
          ((∃ p, SpriteCovers s x y n p ∧ s.fb.get p = true) → t.readV 0xF = 1) ∧
          ((∀ p, SpriteCovers s x y n p → s.fb.get p = false) → t.readV 0xF = 0) ∧
          ∀ p, p ∉ [Part.v 0xF, .pc] → (∀ q, p ≠ .pixel q) → p.same s t) ∧
      (0 < n → Config.memSize ≤ s.i.toNat + n - 1 →
        HaltsWith (exec (.drw x y n) s) s .memory (some (packXYN 0xD x y (BitVec.ofNat 4 n)))
          (.addr (max s.i.toNat Config.memSize)))

/-- The same sprite drawn twice at the same place restores the frame buffer, and the second VF is 1
exactly when the first draw turned some pixel on (R192). -/
def Obligations.DrawIsSelfInverse : Prop :=
  ∀ (x y : Reg) (n : Nat) (s : State), n < 16 → x ≠ 0xF → y ≠ 0xF →
    (n = 0 ∨ s.i.toNat + n - 1 < Config.memSize) →
    ∃ t u, exec (.drw x y n) s = .next t ∧ exec (.drw x y n) t = .next u ∧ u.fb = s.fb ∧
      (u.readV 0xF = 0 ∨ u.readV 0xF = 1) ∧
      (u.readV 0xF = 1 ↔ ∃ p, s.fb.get p = false ∧ t.fb.get p = true)

/-! ### Input and timers (48_input_timer.md) -/

/-- SKP and SKNP test key `V[x]` of this tick's snapshot; `V[x] > 15` is fatal (R200, R201). -/
def Obligations.KeySkips : Prop :=
  ∀ x : Reg, decode (packXKK 0xE x 0x9E) = .ok (.skp x) ∧ decode (packXKK 0xE x 0xA1) = .ok (.sknp x) ∧
    ∀ s : State,
      (∀ k : Fin 16, (s.readV x).toNat = k.val →
        (∃ t, exec (.skp x) s = .next t ∧ SameExcept [.pc] s t ∧
          (s.keys[k.val] = true → t.pc = s.pc + 4) ∧ (s.keys[k.val] = false → t.pc = s.pc + 2)) ∧
        (∃ t, exec (.sknp x) s = .next t ∧ SameExcept [.pc] s t ∧
          (s.keys[k.val] = false → t.pc = s.pc + 4) ∧ (s.keys[k.val] = true → t.pc = s.pc + 2))) ∧
      (15 < (s.readV x).toNat →
        HaltsWith (exec (.skp x) s) s .keyIndex (some (packXKK 0xE x 0x9E)) (.value (s.readV x)) ∧
        HaltsWith (exec (.sknp x) s) s .keyIndex (some (packXKK 0xE x 0xA1)) (.value (s.readV x)))

/-- LD Vx, K enters awaiting-key mode for `x` and leaves `PC` and everything else (R202). -/
def Obligations.KeyWaitBegins : Prop :=
  ∀ x : Reg, decode (packXKK 0xF x 0x0A) = .ok (.ldK x) ∧
    ∀ s : State, ∃ t, exec (.ldK x) s = .next t ∧ t.awaiting = some x ∧ t.pc = s.pc ∧
      SameExcept [.awaiting] s t

/-- An instruction tick of a live awaiting core: with no key gone to pressed it only latches the
keypad; else the lowest such key goes to `V[x]`, the wait ends, `PC` moves on by 2, and no
instruction runs (R203). -/
def Obligations.KeyWaitEndsOnAPress : Prop :=
  ∀ (s : State) (x : Reg) (ks : Keys) (r : Byte), s.live → s.awaiting = some x →
    ((∀ k : Fin 16, ks[k.val] = true → s.keys[k.val] = true) →
      ∃ t, instrTick ks r s = .next t ∧ t.keys = ks ∧ t.keysPrev = s.keys ∧
        SameExcept [.keys, .keysPrev, .rngIn] s t) ∧
    (∀ k : Fin 16, ks[k.val] = true → s.keys[k.val] = false →
      (∀ j : Fin 16, j < k → ks[j.val] = true → s.keys[j.val] = true) →
      ∃ t, instrTick ks r s = .next t ∧ t.keys = ks ∧ t.keysPrev = s.keys ∧
        (t.readV x).toNat = k.val ∧ t.awaiting = none ∧ t.pc = s.pc + 2 ∧
        SameExcept [.v x, .awaiting, .pc, .keys, .keysPrev, .rngIn] s t)

/-- LD Vx, DT reads the delay timer; LD DT, Vx and LD ST, Vx write one timer each (R204 to R206). -/
def Obligations.TimerTransfers : Prop :=
  ∀ x : Reg, decode (packXKK 0xF x 0x07) = .ok (.ldFromDT x) ∧ decode (packXKK 0xF x 0x15) = .ok (.ldDT x) ∧
    decode (packXKK 0xF x 0x18) = .ok (.ldST x) ∧
    ∀ s : State,
      (∃ t, exec (.ldFromDT x) s = .next t ∧ t.readV x = s.dt ∧ t.pc = s.pc + 2 ∧
        SameExcept [.v x, .pc] s t) ∧
      (∃ t, exec (.ldDT x) s = .next t ∧ t.dt = s.readV x ∧ t.pc = s.pc + 2 ∧ SameExcept [.dt, .pc] s t) ∧
      (∃ t, exec (.ldST x) s = .next t ∧ t.st = s.readV x ∧ t.pc = s.pc + 2 ∧ SameExcept [.st, .pc] s t ∧
        (s.live → (t.outputs.audioOn = true ↔ s.readV x ≠ 0)))

/-! ### BCD, block transfer, glyph address (49_bcd_memory_glyph.md) -/

/-- LD B, Vx: three decimal digits at `I`, hundreds first, `I` unchanged; beyond the memory it is
fatal and writes nothing (R220). -/
def Obligations.DecimalDigitsStored : Prop :=
  ∀ x : Reg, decode (packXKK 0xF x 0x33) = .ok (.ldB x) ∧
    ∀ s : State,
      (s.i.toNat + 2 < Config.memSize →
        ∃ t, exec (.ldB x) s = .next t ∧
          (t.readByte s.i.toNat).toNat = (s.readV x).toNat / 100 ∧
          (t.readByte (s.i.toNat + 1)).toNat = (s.readV x).toNat / 10 % 10 ∧
          (t.readByte (s.i.toNat + 2)).toNat = (s.readV x).toNat % 10 ∧
          t.pc = s.pc + 2 ∧ SameExcept (.pc :: byteParts s.i.toNat 3) s t) ∧
      (Config.memSize ≤ s.i.toNat + 2 →
        HaltsWith (exec (.ldB x) s) s .memory (some (packXKK 0xF x 0x33))
          (.addr (max s.i.toNat Config.memSize)))

/-- LD [I], Vx: `V[0]` to `V[x]` at `I` on, `I` past them; beyond the memory it is fatal, with no byte
written and `I` unchanged (R221). -/
def Obligations.BlockStored : Prop :=
  ∀ x : Reg, decode (packXKK 0xF x 0x55) = .ok (.store x) ∧
    ∀ s : State,
      (s.i.toNat + x.val < Config.memSize →
        ∃ t, exec (.store x) s = .next t ∧
          (∀ k : Reg, k ≤ x → t.readByte (s.i.toNat + k.val) = s.readV k) ∧
          t.i.toNat = (s.i.toNat + x.val + 1) % 65536 ∧ t.pc = s.pc + 2 ∧
          SameExcept (.i :: .pc :: byteParts s.i.toNat (x.val + 1)) s t) ∧
      (Config.memSize ≤ s.i.toNat + x.val →
        HaltsWith (exec (.store x) s) s .memory (some (packXKK 0xF x 0x55))
          (.addr (max s.i.toNat Config.memSize)))

/-- LD Vx, [I]: `V[0]` to `V[x]` from `I` on, `I` past them, the registers above unchanged; beyond the
memory it is fatal, with no register and not `I` changed (R222). -/
def Obligations.BlockLoaded : Prop :=
  ∀ x : Reg, decode (packXKK 0xF x 0x65) = .ok (.load x) ∧
    ∀ s : State,
      (s.i.toNat + x.val < Config.memSize →
        ∃ t, exec (.load x) s = .next t ∧
          (∀ k : Reg, k ≤ x → t.readV k = s.readByte (s.i.toNat + k.val)) ∧
          t.i.toNat = (s.i.toNat + x.val + 1) % 65536 ∧ t.pc = s.pc + 2 ∧
          SameExcept (.i :: .pc :: regPartsTo x) s t) ∧
      (Config.memSize ≤ s.i.toNat + x.val →
        HaltsWith (exec (.load x) s) s .memory (some (packXKK 0xF x 0x65))
          (.addr (max s.i.toNat Config.memSize)))

/-- `V[0]` to `V[x]` stored at `I` and loaded from the same address into any registers at all come
back as they were (R221, R222). -/
def Obligations.StoreThenLoadRestores : Prop :=
  ∀ (x : Reg) (s : State) (v' : Vector Byte 16), s.i.toNat + x.val < Config.memSize →
    ∃ t u, exec (.store x) s = .next t ∧ exec (.load x) { t with v := v', i := s.i } = .next u ∧
      ∀ k : Reg, k ≤ x → u.readV k = s.readV k

/-- LD F, Vx: `I` is the glyph address of the low nibble of `V[x]` (R223). -/
def Obligations.GlyphAddressLoaded : Prop :=
  ∀ x : Reg, decode (packXKK 0xF x 0x29) = .ok (.ldF x) ∧
    ∀ s : State, ∃ t, exec (.ldF x) s = .next t ∧
      t.i.toNat = 0x050 + 5 * ((s.readV x).toNat % 16) ∧ t.pc = s.pc + 2 ∧ SameExcept [.i, .pc] s t
end

