-- ==== Sys2Proof/Laws/Decode.lean ====
section
/-! SUPPORT. The fields of a packed word, and a word put together again from its fields. -/

namespace Sys2Proof

@[simp] theorem regOfBits_bitsOfReg (x : Reg) : regOfBits (bitsOfReg x) = x := by
  apply Fin.ext
  simp only [regOfBits, bitsOfReg, BitVec.toNat_ofNat]
  omega

@[simp] theorem bitsOfReg_regOfBits (b : BitVec 4) : bitsOfReg (regOfBits b) = b := by
  apply BitVec.eq_of_toNat_eq
  simp only [regOfBits, bitsOfReg, BitVec.toNat_ofNat]
  omega

/-! ### Format NNN -/

@[simp] theorem fieldH_packNNN (h : BitVec 4) (nnn : Addr) : fieldH (packNNN h nnn) = h := by
  ext i hi
  simp only [fieldH, packNNN, BitVec.getElem_extractLsb', BitVec.getLsbD_append]
  simp [show ¬ 12 + i < 12 by omega, BitVec.getLsbD_eq_getElem, hi]

@[simp] theorem fieldNNN_packNNN (h : BitVec 4) (nnn : Addr) : fieldNNN (packNNN h nnn) = nnn := by
  ext i hi
  simp only [fieldNNN, packNNN, BitVec.getElem_extractLsb', BitVec.getLsbD_append]
  simp [hi]

/-! ### Format XKK -/

@[simp] theorem fieldH_packXKK (h : BitVec 4) (x : Reg) (kk : Byte) : fieldH (packXKK h x kk) = h := by
  ext i hi
  simp only [fieldH, packXKK, BitVec.getElem_extractLsb', BitVec.getLsbD_append]
  simp [show ¬ 12 + i < 8 by omega, show ¬ 12 + i - 8 < 4 by omega, show 12 + i - 8 - 4 = i by omega,
    BitVec.getLsbD_eq_getElem, hi]

@[simp] theorem fieldX_packXKK (h : BitVec 4) (x : Reg) (kk : Byte) : fieldX (packXKK h x kk) = x := by
  have : (packXKK h x kk).extractLsb' 8 4 = bitsOfReg x := by
    ext i hi
    simp only [packXKK, BitVec.getElem_extractLsb', BitVec.getLsbD_append]
    simp [hi]
  rw [fieldX, this, regOfBits_bitsOfReg]

@[simp] theorem fieldKK_packXKK (h : BitVec 4) (x : Reg) (kk : Byte) : fieldKK (packXKK h x kk) = kk := by
  ext i hi
  simp only [fieldKK, packXKK, BitVec.getElem_extractLsb', BitVec.getLsbD_append]
  simp [hi]

/-! ### Format XYN -/

@[simp] theorem fieldH_packXYN (h : BitVec 4) (x y : Reg) (n : BitVec 4) : fieldH (packXYN h x y n) = h := by
  ext i hi
  simp only [fieldH, packXYN, BitVec.getElem_extractLsb', BitVec.getLsbD_append]
  simp [show ¬ 12 + i < 4 by omega, show ¬ 12 + i - 4 < 4 by omega, show ¬ 12 + i - 4 - 4 < 4 by omega,
    show 12 + i - 4 - 4 - 4 = i by omega, BitVec.getLsbD_eq_getElem, hi]

@[simp] theorem fieldX_packXYN (h : BitVec 4) (x y : Reg) (n : BitVec 4) : fieldX (packXYN h x y n) = x := by
  have : (packXYN h x y n).extractLsb' 8 4 = bitsOfReg x := by
    ext i hi
    simp only [packXYN, BitVec.getElem_extractLsb', BitVec.getLsbD_append]
    simp [show ¬ 8 + i < 4 by omega, show ¬ 8 + i - 4 < 4 by omega, show 8 + i - 4 - 4 = i by omega, hi]
  rw [fieldX, this, regOfBits_bitsOfReg]

@[simp] theorem fieldY_packXYN (h : BitVec 4) (x y : Reg) (n : BitVec 4) : fieldY (packXYN h x y n) = y := by
  have : (packXYN h x y n).extractLsb' 4 4 = bitsOfReg y := by
    ext i hi
    simp only [packXYN, BitVec.getElem_extractLsb', BitVec.getLsbD_append]
    simp [hi]
  rw [fieldY, this, regOfBits_bitsOfReg]

@[simp] theorem fieldN_packXYN (h : BitVec 4) (x y : Reg) (n : BitVec 4) : fieldN (packXYN h x y n) = n := by
  ext i hi
  simp only [fieldN, packXYN, BitVec.getElem_extractLsb', BitVec.getLsbD_append]
  simp [hi]

/-! ### A word from its fields -/

theorem packNNN_fields (w : Word) : packNNN (fieldH w) (fieldNNN w) = w := by
  apply BitVec.eq_of_getLsbD_eq
  intro i hi
  simp only [packNNN, fieldH, fieldNNN, BitVec.getLsbD_append, BitVec.getLsbD_extractLsb']
  split
  · simp [*]
  · simp [show i - 12 < 4 by omega, show 12 + (i - 12) = i by omega]

theorem packXKK_fields (w : Word) : packXKK (fieldH w) (fieldX w) (fieldKK w) = w := by
  apply BitVec.eq_of_getLsbD_eq
  intro i hi
  simp only [packXKK, fieldH, fieldX, fieldKK, bitsOfReg_regOfBits, BitVec.getLsbD_append,
    BitVec.getLsbD_extractLsb']
  split
  · simp [*]
  · split
    · simp [*, show 8 + (i - 8) = i by omega]
    · simp [show i - 8 - 4 < 4 by omega, show 12 + (i - 8 - 4) = i by omega]

theorem packXYN_fields (w : Word) : packXYN (fieldH w) (fieldX w) (fieldY w) (fieldN w) = w := by
  apply BitVec.eq_of_getLsbD_eq
  intro i hi
  simp only [packXYN, fieldH, fieldX, fieldY, fieldN, bitsOfReg_regOfBits, BitVec.getLsbD_append,
    BitVec.getLsbD_extractLsb']
  split
  · simp [*]
  · split
    · simp [*, show 4 + (i - 4) = i by omega]
    · split
      · simp [*, show 8 + (i - 4 - 4) = i by omega]
      · simp [show i - 4 - 4 - 4 < 4 by omega, show 12 + (i - 4 - 4 - 4) = i by omega]

/-! ### Bytes of a word -/

@[simp] theorem wordOfBytes_high_low (w : Word) : wordOfBytes (highByte w) (lowByte w) = w := by
  apply BitVec.eq_of_getLsbD_eq
  intro i hi
  simp only [wordOfBytes, highByte, lowByte, BitVec.getLsbD_append, BitVec.getLsbD_extractLsb']
  split
  · simp [*]
  · simp [show i - 8 < 8 by omega, show 8 + (i - 8) = i by omega]

end Sys2Proof
end

