-- ==== Sys2Proof/Laws/State.lean ====
section
/-! SUPPORT. What each named update of State leaves in each field, and what the readers read after it. -/

namespace Sys2Proof.Machine

/-! ### writeV -/

@[simp] theorem State.writeV_v (s : State) (x : Reg) (b : Byte) : (s.writeV x b).v = s.v.set x.val b := rfl
@[simp] theorem State.writeV_i (s : State) (x : Reg) (b : Byte) : (s.writeV x b).i = s.i := rfl
@[simp] theorem State.writeV_pc (s : State) (x : Reg) (b : Byte) : (s.writeV x b).pc = s.pc := rfl
@[simp] theorem State.writeV_stack (s : State) (x : Reg) (b : Byte) : (s.writeV x b).stack = s.stack := rfl
@[simp] theorem State.writeV_sp (s : State) (x : Reg) (b : Byte) : (s.writeV x b).sp = s.sp := rfl
@[simp] theorem State.writeV_dt (s : State) (x : Reg) (b : Byte) : (s.writeV x b).dt = s.dt := rfl
@[simp] theorem State.writeV_st (s : State) (x : Reg) (b : Byte) : (s.writeV x b).st = s.st := rfl
@[simp] theorem State.writeV_fb (s : State) (x : Reg) (b : Byte) : (s.writeV x b).fb = s.fb := rfl
@[simp] theorem State.writeV_fbOut (s : State) (x : Reg) (b : Byte) : (s.writeV x b).fbOut = s.fbOut := rfl
@[simp] theorem State.writeV_keys (s : State) (x : Reg) (b : Byte) : (s.writeV x b).keys = s.keys := rfl
@[simp] theorem State.writeV_keysPrev (s : State) (x : Reg) (b : Byte) : (s.writeV x b).keysPrev = s.keysPrev := rfl
@[simp] theorem State.writeV_awaiting (s : State) (x : Reg) (b : Byte) : (s.writeV x b).awaiting = s.awaiting := rfl
@[simp] theorem State.writeV_fault (s : State) (x : Reg) (b : Byte) : (s.writeV x b).fault = s.fault := rfl
@[simp] theorem State.writeV_run (s : State) (x : Reg) (b : Byte) : (s.writeV x b).run = s.run := rfl
@[simp] theorem State.writeV_mem (s : State) (x : Reg) (b : Byte) : (s.writeV x b).mem = s.mem := rfl
@[simp] theorem State.writeV_inputs (s : State) (x : Reg) (b : Byte) : (s.writeV x b).inputs = s.inputs := rfl
@[simp] theorem State.writeV_freeTicks (s : State) (x : Reg) (b : Byte) : (s.writeV x b).freeTicks = s.freeTicks := rfl
@[simp] theorem State.writeV_rngIn (s : State) (x : Reg) (b : Byte) : (s.writeV x b).rngIn = s.rngIn := rfl

/-! ### writeI -/

@[simp] theorem State.writeI_v (s : State) (a : Word) : (s.writeI a).v = s.v := rfl
@[simp] theorem State.writeI_i (s : State) (a : Word) : (s.writeI a).i = a := rfl
@[simp] theorem State.writeI_pc (s : State) (a : Word) : (s.writeI a).pc = s.pc := rfl
@[simp] theorem State.writeI_stack (s : State) (a : Word) : (s.writeI a).stack = s.stack := rfl
@[simp] theorem State.writeI_sp (s : State) (a : Word) : (s.writeI a).sp = s.sp := rfl
@[simp] theorem State.writeI_dt (s : State) (a : Word) : (s.writeI a).dt = s.dt := rfl
@[simp] theorem State.writeI_st (s : State) (a : Word) : (s.writeI a).st = s.st := rfl
@[simp] theorem State.writeI_fb (s : State) (a : Word) : (s.writeI a).fb = s.fb := rfl
@[simp] theorem State.writeI_fbOut (s : State) (a : Word) : (s.writeI a).fbOut = s.fbOut := rfl
@[simp] theorem State.writeI_keys (s : State) (a : Word) : (s.writeI a).keys = s.keys := rfl
@[simp] theorem State.writeI_keysPrev (s : State) (a : Word) : (s.writeI a).keysPrev = s.keysPrev := rfl
@[simp] theorem State.writeI_awaiting (s : State) (a : Word) : (s.writeI a).awaiting = s.awaiting := rfl
@[simp] theorem State.writeI_fault (s : State) (a : Word) : (s.writeI a).fault = s.fault := rfl
@[simp] theorem State.writeI_run (s : State) (a : Word) : (s.writeI a).run = s.run := rfl
@[simp] theorem State.writeI_mem (s : State) (a : Word) : (s.writeI a).mem = s.mem := rfl
@[simp] theorem State.writeI_inputs (s : State) (a : Word) : (s.writeI a).inputs = s.inputs := rfl
@[simp] theorem State.writeI_freeTicks (s : State) (a : Word) : (s.writeI a).freeTicks = s.freeTicks := rfl
@[simp] theorem State.writeI_rngIn (s : State) (a : Word) : (s.writeI a).rngIn = s.rngIn := rfl

/-! ### jump -/

@[simp] theorem State.jump_v (s : State) (a : Word) : (s.jump a).v = s.v := rfl
@[simp] theorem State.jump_i (s : State) (a : Word) : (s.jump a).i = s.i := rfl
@[simp] theorem State.jump_pc (s : State) (a : Word) : (s.jump a).pc = a := rfl
@[simp] theorem State.jump_stack (s : State) (a : Word) : (s.jump a).stack = s.stack := rfl
@[simp] theorem State.jump_sp (s : State) (a : Word) : (s.jump a).sp = s.sp := rfl
@[simp] theorem State.jump_dt (s : State) (a : Word) : (s.jump a).dt = s.dt := rfl
@[simp] theorem State.jump_st (s : State) (a : Word) : (s.jump a).st = s.st := rfl
@[simp] theorem State.jump_fb (s : State) (a : Word) : (s.jump a).fb = s.fb := rfl
@[simp] theorem State.jump_fbOut (s : State) (a : Word) : (s.jump a).fbOut = s.fbOut := rfl
@[simp] theorem State.jump_keys (s : State) (a : Word) : (s.jump a).keys = s.keys := rfl
@[simp] theorem State.jump_keysPrev (s : State) (a : Word) : (s.jump a).keysPrev = s.keysPrev := rfl
@[simp] theorem State.jump_awaiting (s : State) (a : Word) : (s.jump a).awaiting = s.awaiting := rfl
@[simp] theorem State.jump_fault (s : State) (a : Word) : (s.jump a).fault = s.fault := rfl
@[simp] theorem State.jump_run (s : State) (a : Word) : (s.jump a).run = s.run := rfl
@[simp] theorem State.jump_mem (s : State) (a : Word) : (s.jump a).mem = s.mem := rfl
@[simp] theorem State.jump_inputs (s : State) (a : Word) : (s.jump a).inputs = s.inputs := rfl
@[simp] theorem State.jump_freeTicks (s : State) (a : Word) : (s.jump a).freeTicks = s.freeTicks := rfl
@[simp] theorem State.jump_rngIn (s : State) (a : Word) : (s.jump a).rngIn = s.rngIn := rfl

/-! ### advance -/

@[simp] theorem State.advance_v (s : State) : (s.advance).v = s.v := rfl
@[simp] theorem State.advance_i (s : State) : (s.advance).i = s.i := rfl
@[simp] theorem State.advance_pc (s : State) : (s.advance).pc = s.pc + 2 := rfl
@[simp] theorem State.advance_stack (s : State) : (s.advance).stack = s.stack := rfl
@[simp] theorem State.advance_sp (s : State) : (s.advance).sp = s.sp := rfl
@[simp] theorem State.advance_dt (s : State) : (s.advance).dt = s.dt := rfl
@[simp] theorem State.advance_st (s : State) : (s.advance).st = s.st := rfl
@[simp] theorem State.advance_fb (s : State) : (s.advance).fb = s.fb := rfl
@[simp] theorem State.advance_fbOut (s : State) : (s.advance).fbOut = s.fbOut := rfl
@[simp] theorem State.advance_keys (s : State) : (s.advance).keys = s.keys := rfl
@[simp] theorem State.advance_keysPrev (s : State) : (s.advance).keysPrev = s.keysPrev := rfl
@[simp] theorem State.advance_awaiting (s : State) : (s.advance).awaiting = s.awaiting := rfl
@[simp] theorem State.advance_fault (s : State) : (s.advance).fault = s.fault := rfl
@[simp] theorem State.advance_run (s : State) : (s.advance).run = s.run := rfl
@[simp] theorem State.advance_mem (s : State) : (s.advance).mem = s.mem := rfl
@[simp] theorem State.advance_inputs (s : State) : (s.advance).inputs = s.inputs := rfl
@[simp] theorem State.advance_freeTicks (s : State) : (s.advance).freeTicks = s.freeTicks := rfl
@[simp] theorem State.advance_rngIn (s : State) : (s.advance).rngIn = s.rngIn := rfl

/-! ### skipIf -/

@[simp] theorem State.skipIf_v (s : State) (c : Bool) : (s.skipIf c).v = s.v := rfl
@[simp] theorem State.skipIf_i (s : State) (c : Bool) : (s.skipIf c).i = s.i := rfl
@[simp] theorem State.skipIf_pc (s : State) (c : Bool) : (s.skipIf c).pc = s.pc + if c then 4 else 2 := rfl
@[simp] theorem State.skipIf_stack (s : State) (c : Bool) : (s.skipIf c).stack = s.stack := rfl
@[simp] theorem State.skipIf_sp (s : State) (c : Bool) : (s.skipIf c).sp = s.sp := rfl
@[simp] theorem State.skipIf_dt (s : State) (c : Bool) : (s.skipIf c).dt = s.dt := rfl
@[simp] theorem State.skipIf_st (s : State) (c : Bool) : (s.skipIf c).st = s.st := rfl
@[simp] theorem State.skipIf_fb (s : State) (c : Bool) : (s.skipIf c).fb = s.fb := rfl
@[simp] theorem State.skipIf_fbOut (s : State) (c : Bool) : (s.skipIf c).fbOut = s.fbOut := rfl
@[simp] theorem State.skipIf_keys (s : State) (c : Bool) : (s.skipIf c).keys = s.keys := rfl
@[simp] theorem State.skipIf_keysPrev (s : State) (c : Bool) : (s.skipIf c).keysPrev = s.keysPrev := rfl
@[simp] theorem State.skipIf_awaiting (s : State) (c : Bool) : (s.skipIf c).awaiting = s.awaiting := rfl
@[simp] theorem State.skipIf_fault (s : State) (c : Bool) : (s.skipIf c).fault = s.fault := rfl
@[simp] theorem State.skipIf_run (s : State) (c : Bool) : (s.skipIf c).run = s.run := rfl
@[simp] theorem State.skipIf_mem (s : State) (c : Bool) : (s.skipIf c).mem = s.mem := rfl
@[simp] theorem State.skipIf_inputs (s : State) (c : Bool) : (s.skipIf c).inputs = s.inputs := rfl
@[simp] theorem State.skipIf_freeTicks (s : State) (c : Bool) : (s.skipIf c).freeTicks = s.freeTicks := rfl
@[simp] theorem State.skipIf_rngIn (s : State) (c : Bool) : (s.skipIf c).rngIn = s.rngIn := rfl

/-! ### writeFlag -/

@[simp] theorem State.writeFlag_v (s : State) (c : Bool) : (s.writeFlag c).v = s.v.set flagReg.val (flagByte c) := rfl
@[simp] theorem State.writeFlag_i (s : State) (c : Bool) : (s.writeFlag c).i = s.i := rfl
@[simp] theorem State.writeFlag_pc (s : State) (c : Bool) : (s.writeFlag c).pc = s.pc := rfl
@[simp] theorem State.writeFlag_stack (s : State) (c : Bool) : (s.writeFlag c).stack = s.stack := rfl
@[simp] theorem State.writeFlag_sp (s : State) (c : Bool) : (s.writeFlag c).sp = s.sp := rfl
@[simp] theorem State.writeFlag_dt (s : State) (c : Bool) : (s.writeFlag c).dt = s.dt := rfl
@[simp] theorem State.writeFlag_st (s : State) (c : Bool) : (s.writeFlag c).st = s.st := rfl
@[simp] theorem State.writeFlag_fb (s : State) (c : Bool) : (s.writeFlag c).fb = s.fb := rfl
@[simp] theorem State.writeFlag_fbOut (s : State) (c : Bool) : (s.writeFlag c).fbOut = s.fbOut := rfl
@[simp] theorem State.writeFlag_keys (s : State) (c : Bool) : (s.writeFlag c).keys = s.keys := rfl
@[simp] theorem State.writeFlag_keysPrev (s : State) (c : Bool) : (s.writeFlag c).keysPrev = s.keysPrev := rfl
@[simp] theorem State.writeFlag_awaiting (s : State) (c : Bool) : (s.writeFlag c).awaiting = s.awaiting := rfl
@[simp] theorem State.writeFlag_fault (s : State) (c : Bool) : (s.writeFlag c).fault = s.fault := rfl
@[simp] theorem State.writeFlag_run (s : State) (c : Bool) : (s.writeFlag c).run = s.run := rfl
@[simp] theorem State.writeFlag_mem (s : State) (c : Bool) : (s.writeFlag c).mem = s.mem := rfl
@[simp] theorem State.writeFlag_inputs (s : State) (c : Bool) : (s.writeFlag c).inputs = s.inputs := rfl
@[simp] theorem State.writeFlag_freeTicks (s : State) (c : Bool) : (s.writeFlag c).freeTicks = s.freeTicks := rfl
@[simp] theorem State.writeFlag_rngIn (s : State) (c : Bool) : (s.writeFlag c).rngIn = s.rngIn := rfl

/-! ### writeResultFlag -/

@[simp] theorem State.writeResultFlag_v (s : State) (x : Reg) (b : Byte) (c : Bool) : (s.writeResultFlag x b c).v = (s.v.set x.val b).set flagReg.val (flagByte c) := rfl
@[simp] theorem State.writeResultFlag_i (s : State) (x : Reg) (b : Byte) (c : Bool) : (s.writeResultFlag x b c).i = s.i := rfl
@[simp] theorem State.writeResultFlag_pc (s : State) (x : Reg) (b : Byte) (c : Bool) : (s.writeResultFlag x b c).pc = s.pc := rfl
@[simp] theorem State.writeResultFlag_stack (s : State) (x : Reg) (b : Byte) (c : Bool) : (s.writeResultFlag x b c).stack = s.stack := rfl
@[simp] theorem State.writeResultFlag_sp (s : State) (x : Reg) (b : Byte) (c : Bool) : (s.writeResultFlag x b c).sp = s.sp := rfl
@[simp] theorem State.writeResultFlag_dt (s : State) (x : Reg) (b : Byte) (c : Bool) : (s.writeResultFlag x b c).dt = s.dt := rfl
@[simp] theorem State.writeResultFlag_st (s : State) (x : Reg) (b : Byte) (c : Bool) : (s.writeResultFlag x b c).st = s.st := rfl
@[simp] theorem State.writeResultFlag_fb (s : State) (x : Reg) (b : Byte) (c : Bool) : (s.writeResultFlag x b c).fb = s.fb := rfl
@[simp] theorem State.writeResultFlag_fbOut (s : State) (x : Reg) (b : Byte) (c : Bool) : (s.writeResultFlag x b c).fbOut = s.fbOut := rfl
@[simp] theorem State.writeResultFlag_keys (s : State) (x : Reg) (b : Byte) (c : Bool) : (s.writeResultFlag x b c).keys = s.keys := rfl
@[simp] theorem State.writeResultFlag_keysPrev (s : State) (x : Reg) (b : Byte) (c : Bool) : (s.writeResultFlag x b c).keysPrev = s.keysPrev := rfl
@[simp] theorem State.writeResultFlag_awaiting (s : State) (x : Reg) (b : Byte) (c : Bool) : (s.writeResultFlag x b c).awaiting = s.awaiting := rfl
@[simp] theorem State.writeResultFlag_fault (s : State) (x : Reg) (b : Byte) (c : Bool) : (s.writeResultFlag x b c).fault = s.fault := rfl
@[simp] theorem State.writeResultFlag_run (s : State) (x : Reg) (b : Byte) (c : Bool) : (s.writeResultFlag x b c).run = s.run := rfl
@[simp] theorem State.writeResultFlag_mem (s : State) (x : Reg) (b : Byte) (c : Bool) : (s.writeResultFlag x b c).mem = s.mem := rfl
@[simp] theorem State.writeResultFlag_inputs (s : State) (x : Reg) (b : Byte) (c : Bool) : (s.writeResultFlag x b c).inputs = s.inputs := rfl
@[simp] theorem State.writeResultFlag_freeTicks (s : State) (x : Reg) (b : Byte) (c : Bool) : (s.writeResultFlag x b c).freeTicks = s.freeTicks := rfl
@[simp] theorem State.writeResultFlag_rngIn (s : State) (x : Reg) (b : Byte) (c : Bool) : (s.writeResultFlag x b c).rngIn = s.rngIn := rfl

/-! ### raise -/

@[simp] theorem State.raise_v (s : State) (k : ErrorKind) (w : Option Word) (e : ErrorInfo) : (s.raise k w e).v = s.v := rfl
@[simp] theorem State.raise_i (s : State) (k : ErrorKind) (w : Option Word) (e : ErrorInfo) : (s.raise k w e).i = s.i := rfl
@[simp] theorem State.raise_pc (s : State) (k : ErrorKind) (w : Option Word) (e : ErrorInfo) : (s.raise k w e).pc = s.pc := rfl
@[simp] theorem State.raise_stack (s : State) (k : ErrorKind) (w : Option Word) (e : ErrorInfo) : (s.raise k w e).stack = s.stack := rfl
@[simp] theorem State.raise_sp (s : State) (k : ErrorKind) (w : Option Word) (e : ErrorInfo) : (s.raise k w e).sp = s.sp := rfl
@[simp] theorem State.raise_dt (s : State) (k : ErrorKind) (w : Option Word) (e : ErrorInfo) : (s.raise k w e).dt = s.dt := rfl
@[simp] theorem State.raise_st (s : State) (k : ErrorKind) (w : Option Word) (e : ErrorInfo) : (s.raise k w e).st = s.st := rfl
@[simp] theorem State.raise_fb (s : State) (k : ErrorKind) (w : Option Word) (e : ErrorInfo) : (s.raise k w e).fb = s.fb := rfl
@[simp] theorem State.raise_fbOut (s : State) (k : ErrorKind) (w : Option Word) (e : ErrorInfo) : (s.raise k w e).fbOut = s.fbOut := rfl
@[simp] theorem State.raise_keys (s : State) (k : ErrorKind) (w : Option Word) (e : ErrorInfo) : (s.raise k w e).keys = s.keys := rfl
@[simp] theorem State.raise_keysPrev (s : State) (k : ErrorKind) (w : Option Word) (e : ErrorInfo) : (s.raise k w e).keysPrev = s.keysPrev := rfl
@[simp] theorem State.raise_awaiting (s : State) (k : ErrorKind) (w : Option Word) (e : ErrorInfo) : (s.raise k w e).awaiting = s.awaiting := rfl
@[simp] theorem State.raise_fault (s : State) (k : ErrorKind) (w : Option Word) (e : ErrorInfo) : (s.raise k w e).fault = some { kind := k, pc := s.pc, word := w, info := e } := rfl
@[simp] theorem State.raise_run (s : State) (k : ErrorKind) (w : Option Word) (e : ErrorInfo) : (s.raise k w e).run = s.run := rfl
@[simp] theorem State.raise_mem (s : State) (k : ErrorKind) (w : Option Word) (e : ErrorInfo) : (s.raise k w e).mem = s.mem := rfl
@[simp] theorem State.raise_inputs (s : State) (k : ErrorKind) (w : Option Word) (e : ErrorInfo) : (s.raise k w e).inputs = s.inputs := rfl
@[simp] theorem State.raise_freeTicks (s : State) (k : ErrorKind) (w : Option Word) (e : ErrorInfo) : (s.raise k w e).freeTicks = s.freeTicks := rfl
@[simp] theorem State.raise_rngIn (s : State) (k : ErrorKind) (w : Option Word) (e : ErrorInfo) : (s.raise k w e).rngIn = s.rngIn := rfl

/-! ### latch -/

@[simp] theorem State.latch_v (s : State) (ks : Keys) (r : Byte) : (s.latch ks r).v = s.v := rfl
@[simp] theorem State.latch_i (s : State) (ks : Keys) (r : Byte) : (s.latch ks r).i = s.i := rfl
@[simp] theorem State.latch_pc (s : State) (ks : Keys) (r : Byte) : (s.latch ks r).pc = s.pc := rfl
@[simp] theorem State.latch_stack (s : State) (ks : Keys) (r : Byte) : (s.latch ks r).stack = s.stack := rfl
@[simp] theorem State.latch_sp (s : State) (ks : Keys) (r : Byte) : (s.latch ks r).sp = s.sp := rfl
@[simp] theorem State.latch_dt (s : State) (ks : Keys) (r : Byte) : (s.latch ks r).dt = s.dt := rfl
@[simp] theorem State.latch_st (s : State) (ks : Keys) (r : Byte) : (s.latch ks r).st = s.st := rfl
@[simp] theorem State.latch_fb (s : State) (ks : Keys) (r : Byte) : (s.latch ks r).fb = s.fb := rfl
@[simp] theorem State.latch_fbOut (s : State) (ks : Keys) (r : Byte) : (s.latch ks r).fbOut = s.fbOut := rfl
@[simp] theorem State.latch_keys (s : State) (ks : Keys) (r : Byte) : (s.latch ks r).keys = ks := rfl
@[simp] theorem State.latch_keysPrev (s : State) (ks : Keys) (r : Byte) : (s.latch ks r).keysPrev = s.keys := rfl
@[simp] theorem State.latch_awaiting (s : State) (ks : Keys) (r : Byte) : (s.latch ks r).awaiting = s.awaiting := rfl
@[simp] theorem State.latch_fault (s : State) (ks : Keys) (r : Byte) : (s.latch ks r).fault = s.fault := rfl
@[simp] theorem State.latch_run (s : State) (ks : Keys) (r : Byte) : (s.latch ks r).run = s.run := rfl
@[simp] theorem State.latch_mem (s : State) (ks : Keys) (r : Byte) : (s.latch ks r).mem = s.mem := rfl
@[simp] theorem State.latch_inputs (s : State) (ks : Keys) (r : Byte) : (s.latch ks r).inputs = s.inputs := rfl
@[simp] theorem State.latch_freeTicks (s : State) (ks : Keys) (r : Byte) : (s.latch ks r).freeTicks = s.freeTicks := rfl
@[simp] theorem State.latch_rngIn (s : State) (ks : Keys) (r : Byte) : (s.latch ks r).rngIn = r := rfl

/-! ### Readers -/

theorem State.readV_eq (s : State) (x : Reg) : s.readV x = s.v[x.val] := rfl

@[simp] theorem State.readV_writeV (s : State) (x y : Reg) (b : Byte) :
    (s.writeV x b).readV y = if y = x then b else s.readV y := by
  simp only [State.readV, State.writeV_v, Vector.getElem_set, Fin.ext_iff, eq_comm]

@[simp] theorem State.readV_writeFlag (s : State) (y : Reg) (c : Bool) :
    (s.writeFlag c).readV y = if y = flagReg then flagByte c else s.readV y :=
  State.readV_writeV s flagReg y _

@[simp] theorem State.readV_writeResultFlag (s : State) (x y : Reg) (b : Byte) (c : Bool) :
    (s.writeResultFlag x b c).readV y =
      if y = flagReg then flagByte c else if y = x then b else s.readV y := by
  simp [State.writeResultFlag]

@[simp] theorem State.readV_writeI (s : State) (a : Word) (y : Reg) : (s.writeI a).readV y = s.readV y := rfl
@[simp] theorem State.readV_jump (s : State) (a : Word) (y : Reg) : (s.jump a).readV y = s.readV y := rfl
@[simp] theorem State.readV_advance (s : State) (y : Reg) : (s.advance).readV y = s.readV y := rfl
@[simp] theorem State.readV_skipIf (s : State) (c : Bool) (y : Reg) : (s.skipIf c).readV y = s.readV y := rfl
@[simp] theorem State.readV_raise (s : State) (k : ErrorKind) (w : Option Word) (e : ErrorInfo) (y : Reg) : (s.raise k w e).readV y = s.readV y := rfl
@[simp] theorem State.readV_latch (s : State) (ks : Keys) (r : Byte) (y : Reg) : (s.latch ks r).readV y = s.readV y := rfl

@[simp] theorem State.readByte_writeV (s : State) (x : Reg) (b : Byte) (n : Nat) : (s.writeV x b).readByte n = s.readByte n := rfl
@[simp] theorem State.readByte_writeI (s : State) (a : Word) (n : Nat) : (s.writeI a).readByte n = s.readByte n := rfl
@[simp] theorem State.readByte_jump (s : State) (a : Word) (n : Nat) : (s.jump a).readByte n = s.readByte n := rfl
@[simp] theorem State.readByte_advance (s : State) (n : Nat) : (s.advance).readByte n = s.readByte n := rfl
@[simp] theorem State.readByte_skipIf (s : State) (c : Bool) (n : Nat) : (s.skipIf c).readByte n = s.readByte n := rfl
@[simp] theorem State.readByte_writeFlag (s : State) (c : Bool) (n : Nat) : (s.writeFlag c).readByte n = s.readByte n := rfl
@[simp] theorem State.readByte_writeResultFlag (s : State) (x : Reg) (b : Byte) (c : Bool) (n : Nat) : (s.writeResultFlag x b c).readByte n = s.readByte n := rfl
@[simp] theorem State.readByte_raise (s : State) (k : ErrorKind) (w : Option Word) (e : ErrorInfo) (n : Nat) : (s.raise k w e).readByte n = s.readByte n := rfl
@[simp] theorem State.readByte_latch (s : State) (ks : Keys) (r : Byte) (n : Nat) : (s.latch ks r).readByte n = s.readByte n := rfl

/-! ### Frames -/

/-- Two states that read the same everywhere outside `ps` also do outside a larger list. -/
theorem SameExcept.mono {ps qs : List Part} {s t : State} (h : SameExcept ps s t)
    (hsub : ∀ p ∈ ps, p ∈ qs) : SameExcept qs s t :=
  fun p hp => h p fun hmem => hp (hsub p hmem)

theorem SameExcept.refl (ps : List Part) (s : State) : SameExcept ps s s := by
  intro p _
  cases p <;> simp [Part.same]

/-- A live machine is not frozen. -/
theorem State.frozen_of_live {s : State} (h : s.live) : s.frozen = false := by
  simp [State.frozen, h.1, h.2]

/-- Frozen is the opposite of live. -/
theorem State.frozen_iff_not_live (s : State) : s.frozen = true ↔ ¬ s.live := by
  rcases hf : s.fault with _ | r <;> rcases hr : s.run <;> simp [State.frozen, State.live, hf, hr]

end Sys2Proof.Machine
end

