-- ==== Sys2Proof/Laws/Memory.lean ====
section
/-! SUPPORT. The laws of the byte memory: read after write, and the canonical form kept. -/

namespace Sys2Proof.Machine

theorem Memory.read_erase (m : Memory) (a b : Nat) :
    (m.erase a).read b = if b = a then Memory.initial a else m.read b := by
  induction m with
  | nil => simp only [Memory.erase, Memory.read]; split <;> simp_all
  | cons c m ih =>
    by_cases hc : c.1 = a
    · by_cases hb : b = a
      · subst hb
        simp [Memory.erase, hc, ih]
      · have : c.1 ≠ b := fun h => hb (h.symm.trans hc)
        simp [Memory.erase, Memory.read, hc, ih, hb, Ne.symm hb]
    · by_cases hb : b = a
      · subst hb
        simp [Memory.erase, Memory.read, hc, ih]
      · simp [Memory.erase, Memory.read, hc, ih, hb]

/-- No cell of the memory has the address. -/
def Memory.absent (m : Memory) (a : Nat) : Prop := ∀ c ∈ m, c.1 ≠ a

theorem Memory.absent_erase (m : Memory) (a : Nat) : Memory.absent (m.erase a) a := by
  induction m with
  | nil => simp [Memory.absent, Memory.erase]
  | cons c m ih =>
    by_cases hc : c.1 = a
    · simpa [Memory.erase, hc] using ih
    · simpa [Memory.absent, Memory.erase, hc] using ih

theorem Memory.read_insert (m : Memory) (c : Host.Cell) (b : Nat) (h : Memory.absent m c.1) :
    (m.insert c).read b = if b = c.1 then c.2 else m.read b := by
  induction m with
  | nil => simp [Memory.insert, Memory.read, eq_comm]
  | cons d m ih =>
    have hd : d.1 ≠ c.1 := h d (by simp)
    have hm : Memory.absent m c.1 := fun e he => h e (by simp [he])
    by_cases hlt : c.1 < d.1
    · simp [Memory.insert, Memory.read, hlt, eq_comm]
    · by_cases hb : d.1 = b
      · subst hb
        simp [Memory.insert, Memory.read, hlt, hd]
      · simp [Memory.insert, Memory.read, hlt, hb, ih hm]

/-- Read after write: the byte written at its address, every other address as before. It holds of
every list of cells, canonical or not. -/
@[simp] theorem Memory.read_write (m : Memory) (a b : Nat) (v : Byte) :
    (m.write a v).read b = if b = a then v else m.read b := by
  unfold Memory.write
  split
  · next h => simp [Memory.read_erase, h]
  · rw [Memory.read_insert _ (a, v) _ (Memory.absent_erase m a), Memory.read_erase]
    by_cases hb : b = a <;> simp [hb]

/-- Read after a run of writes. -/
theorem Memory.read_writeBytes (m : Memory) (a b : Nat) (bs : List Byte) :
    (m.writeBytes a bs).read b =
      if a ≤ b ∧ b < a + bs.length then bs.getD (b - a) 0 else m.read b := by
  induction bs generalizing m a with
  | nil =>
    have : ¬ (a ≤ b ∧ b < a) := by omega
    simp [Memory.writeBytes, this]
  | cons v bs ih =>
    rw [Memory.writeBytes, ih, Memory.read_write]
    rcases Nat.lt_trichotomy b a with h | h | h
    · simp [show ¬ a + 1 ≤ b by omega, show ¬ a ≤ b by omega, show b ≠ a by omega]
    · subst h; simp
    · obtain ⟨k, rfl⟩ : ∃ k, b = a + 1 + k := ⟨b - (a + 1), by omega⟩
      simp only [List.length_cons, show a + 1 ≤ a + 1 + k by omega, show a ≤ a + 1 + k by omega, true_and,
        show a + 1 + k - (a + 1) = k by omega, show a + 1 + k - a = k + 1 by omega,
        List.getD_cons_succ, show a + 1 + k ≠ a by omega, if_false]
      simp only [show (a + 1 + k < a + 1 + bs.length) = (a + 1 + k < a + (bs.length + 1)) by
        rw [show a + 1 + bs.length = a + (bs.length + 1) by omega]]

/-- Outside the bytes written every address reads as before. -/
theorem Memory.read_writeBytes_outside (m : Memory) (a b : Nat) (bs : List Byte)
    (h : ∀ k < bs.length, b ≠ a + k) : (m.writeBytes a bs).read b = m.read b := by
  rw [Memory.read_writeBytes, if_neg]
  rintro ⟨h1, h2⟩
  exact h (b - a) (by omega) (by omega)

@[simp] theorem Memory.length_readBytes (m : Memory) (a n : Nat) : (m.readBytes a n).length = n := by
  induction n generalizing a with
  | zero => rfl
  | succ n ih => simp [Memory.readBytes, ih]

theorem Memory.getD_readBytes (m : Memory) (a n k : Nat) (h : k < n) :
    (m.readBytes a n).getD k 0 = m.read (a + k) := by
  induction n generalizing a k with
  | zero => omega
  | succ n ih =>
    cases k with
    | zero => simp [Memory.readBytes]
    | succ k =>
      simp only [Memory.readBytes, List.getD_cons_succ]
      rw [ih (a + 1) k (by omega), show a + 1 + k = a + (k + 1) by omega]

/-! ### The canonical form -/

theorem Memory.wfFrom_mono {m : Memory} {lo lo' : Nat} (h : m.wfFrom lo = true) (hle : lo' ≤ lo) :
    m.wfFrom lo' = true := by
  cases m with
  | nil => rfl
  | cons c m =>
    simp only [Memory.wfFrom, Bool.and_eq_true, decide_eq_true_eq] at h ⊢
    exact ⟨⟨⟨by omega, h.1.1.2⟩, h.1.2⟩, h.2⟩

theorem Memory.wfFrom_erase {m : Memory} {lo : Nat} (a : Nat) (h : m.wfFrom lo = true) :
    (m.erase a).wfFrom lo = true := by
  induction m generalizing lo with
  | nil => rfl
  | cons c m ih =>
    simp only [Memory.wfFrom, Bool.and_eq_true, decide_eq_true_eq] at h
    by_cases hc : c.1 = a
    · simpa [Memory.erase, hc] using wfFrom_mono (ih h.2) (by omega)
    · simp only [Memory.erase, hc, if_false, Memory.wfFrom, Bool.and_eq_true, decide_eq_true_eq]
      exact ⟨h.1, ih h.2⟩

theorem Memory.wfFrom_insert {m : Memory} {lo : Nat} (c : Host.Cell) (h : m.wfFrom lo = true)
    (hlo : lo ≤ c.1) (hsize : c.1 < Config.memSize) (hne : c.2 ≠ Memory.initial c.1)
    (habs : Memory.absent m c.1) : (m.insert c).wfFrom lo = true := by
  induction m generalizing lo with
  | nil => simp [Memory.insert, Memory.wfFrom, hlo, hne]; omega
  | cons d m ih =>
    simp only [Memory.wfFrom, Bool.and_eq_true, decide_eq_true_eq] at h
    have hd : d.1 ≠ c.1 := habs d (by simp)
    have hm : Memory.absent m c.1 := fun e he => habs e (by simp [he])
    by_cases hlt : c.1 < d.1
    · simp only [Memory.insert, hlt, if_true, Memory.wfFrom, Bool.and_eq_true, decide_eq_true_eq]
      exact ⟨⟨⟨hlo, hsize⟩, hne⟩, ⟨⟨⟨by omega, h.1.1.2⟩, h.1.2⟩, h.2⟩⟩
    · simp only [Memory.insert, hlt, if_false, Memory.wfFrom, Bool.and_eq_true, decide_eq_true_eq]
      exact ⟨h.1, ih h.2 (by omega) hm⟩

/-- A write inside the memory keeps the canonical form. -/
theorem Memory.wf_write {m : Memory} (a : Nat) (v : Byte) (h : m.wf = true)
    (ha : a < Config.memSize) : (m.write a v).wf = true := by
  unfold Memory.write
  split
  · exact wfFrom_erase a h
  · next hne => exact wfFrom_insert (a, v) (wfFrom_erase a h) (Nat.zero_le _) ha hne (absent_erase m a)

/-- A run of writes inside the memory keeps the canonical form. -/
theorem Memory.wf_writeBytes {m : Memory} (a : Nat) (bs : List Byte) (h : m.wf = true)
    (ha : a + bs.length ≤ Config.memSize) : (m.writeBytes a bs).wf = true := by
  induction bs generalizing m a with
  | nil => exact h
  | cons v bs ih =>
    simp only [List.length_cons] at ha
    exact ih (a + 1) (wf_write a v h (by omega)) (by omega)

theorem Memory.wf_reset : State.reset.mem.wf = true := rfl

/-! ### Bounds (20_memory.md R61, R62) -/

theorem Memory.inBounds_iff (a n : Nat) :
    Memory.inBounds a n = true ↔ n = 0 ∨ a + n ≤ Config.memSize := by
  simp only [Memory.inBounds, Config.memSize, decide_eq_true_eq]
  omega

/-- The bad address recorded is the first one of the range outside the memory (R61). -/
theorem Memory.firstBad_least {a n : Nat} (h : Memory.inBounds a n = false) :
    a ≤ Memory.firstBad a ∧ Memory.firstBad a < a + n ∧ Config.memSize ≤ Memory.firstBad a ∧
      ∀ b, a ≤ b → b < Memory.firstBad a → b < Config.memSize := by
  have : ¬ (n = 0 ∨ a + n ≤ Config.memSize) := by
    rw [← Memory.inBounds_iff]; simp [h]
  simp only [Memory.firstBad, Config.memSize] at this ⊢
  exact ⟨by omega, by omega, by omega, fun b _ _ => by omega⟩

end Sys2Proof.Machine
end

