-- ==== Sys2Proof/Laws/Ops.lean ====
section
/-! SUPPORT. One lemma for each shared operation that says everything it can do. -/

namespace Sys2Proof.Machine

/-! ### Memory accesses (20_memory.md R61, R62) -/

theorem State.memRead_ok {s : State} {a n : Nat} (h : n = 0 ∨ a + n ≤ Config.memSize) :
    s.memRead a n = .ok (s.mem.readBytes a n) := by
  simp only [State.memRead, (Memory.inBounds_iff a n).2 h, if_true]

theorem State.memRead_error {s : State} {a n : Nat} (h : ¬ (n = 0 ∨ a + n ≤ Config.memSize)) :
    s.memRead a n = .error (Memory.firstBad a) := by
  rw [State.memRead, if_neg fun hb => h ((Memory.inBounds_iff a n).1 hb)]

theorem State.memWrite_ok {s : State} {a : Nat} {bs : List Byte}
    (h : bs.length = 0 ∨ a + bs.length ≤ Config.memSize) :
    s.memWrite a bs = .ok { s with mem := s.mem.writeBytes a bs } := by
  simp only [State.memWrite, (Memory.inBounds_iff a bs.length).2 h, if_true]

theorem State.memWrite_error {s : State} {a : Nat} {bs : List Byte}
    (h : ¬ (bs.length = 0 ∨ a + bs.length ≤ Config.memSize)) :
    s.memWrite a bs = .error (Memory.firstBad a) := by
  rw [State.memWrite, if_neg fun hb => h ((Memory.inBounds_iff a bs.length).1 hb)]

/-! ### Call stack (10_state.md R25, R26) -/

theorem State.push_of_lt {s : State} (a : Word) (h : s.sp.val < 16) :
    s.push a = some { s with stack := s.stack.set s.sp.val a, sp := ⟨s.sp.val + 1, by omega⟩ } := by
  simp [State.push, h]

theorem State.push_of_full {s : State} (a : Word) (h : s.sp.val = 16) : s.push a = none := by
  simp [State.push, h]

theorem State.pop_of_pos {s : State} (h : 0 < s.sp.val) :
    s.pop = some (s.stack[s.sp.val - 1]'(by omega), { s with sp := ⟨s.sp.val - 1, by omega⟩ }) := by
  simp [State.pop, h]

theorem State.pop_of_empty {s : State} (h : s.sp.val = 0) : s.pop = none := by
  simp [State.pop, h]

/-! ### Fatal errors (60_exceptions.md R241 to R243) -/

theorem State.sameExcept_raise (s : State) (k : ErrorKind) (w : Option Word) (e : ErrorInfo) :
    SameExcept [.fault] s (s.raise k w e) := by
  intro p hp
  cases p <;> simp_all [Part.same]

theorem raiseIn_haltsWith (i : Instr) (k : ErrorKind) (e : ErrorInfo) (s : State) :
    HaltsWith (raiseIn i k e s) s k (some (encode i)) e :=
  ⟨_, rfl, rfl, s.sameExcept_raise k _ e⟩

theorem raise_haltsWith (s : State) (k : ErrorKind) (w : Option Word) (e : ErrorInfo) :
    HaltsWith (.next (s.raise k w e)) s k w e :=
  ⟨_, rfl, rfl, s.sameExcept_raise k w e⟩

/-! ### Keypad (48_input_timer.md R203) -/

theorem mem_allKeys (k : Fin 16) : k ∈ allKeys := by
  revert k; decide

theorem State.newKey_none {s : State} :
    s.newKey = none ↔ ∀ k : Fin 16, s.keys[k.val] = true → s.keysPrev[k.val] = true := by
  simp only [State.newKey, List.find?_eq_none, mem_allKeys, forall_true_left, Keys.pressed]
  simp

/-- A list in strict order finds its least member that meets a test. -/
theorem find?_eq_some_of_least {l : List (Fin 16)} {p : Fin 16 → Bool} {k : Fin 16}
    (hs : l.Pairwise (· < ·)) (hk : k ∈ l) (hp : p k = true) (hl : ∀ j < k, p j = false) :
    l.find? p = some k := by
  induction l with
  | nil => cases hk
  | cons j l ih =>
    rw [List.pairwise_cons] at hs
    rcases List.mem_cons.1 hk with rfl | hk
    · simp [hp]
    · have := hl j (hs.1 k hk)
      simp [this, ih hs.2 hk]

theorem State.newKey_least {s : State} {k : Fin 16} (hk : s.keys[k.val] = true)
    (hp : s.keysPrev[k.val] = false)
    (hl : ∀ j : Fin 16, j < k → s.keys[j.val] = true → s.keysPrev[j.val] = true) :
    s.newKey = some k := by
  refine find?_eq_some_of_least (by decide) (mem_allKeys k) (by simp [Keys.pressed, hk, hp]) ?_
  intro j hj
  by_cases h : s.keys[j.val] = true
  · simp [Keys.pressed, h, hl j hj h]
  · simp [Keys.pressed, h]

/-! ### Register runs (49_bcd_memory_glyph.md R221, R222) -/

@[simp] theorem State.length_readVs (s : State) (k n : Nat) : (s.readVs k n).length = n := by
  induction n generalizing k with
  | zero => rfl
  | succ n ih => simp [State.readVs, ih]

theorem State.getD_readVs (s : State) (k n j : Nat) (hj : j < n) (h : k + j < 16) :
    (s.readVs k n).getD j 0 = s.readV ⟨k + j, h⟩ := by
  induction n generalizing k j with
  | zero => omega
  | succ n ih =>
    cases j with
    | zero => simp [State.readVs, show k < 16 from h]
    | succ j =>
      simp only [State.readVs, List.getD_cons_succ]
      rw [ih (k + 1) j (by omega) (by omega)]
      congr 2
      omega

/-- A run of register writes changes the registers of the run and no other field. -/
theorem State.writeVs_eq (s : State) (k : Nat) (bs : List Byte) :
    ∃ v', s.writeVs k bs = { s with v := v' } := by
  induction bs generalizing s k with
  | nil => exact ⟨s.v, rfl⟩
  | cons b bs ih =>
    rw [State.writeVs]
    split
    · obtain ⟨v', h⟩ := ih (s.writeV _ b) (k + 1)
      exact ⟨v', h⟩
    · exact ih s (k + 1)

theorem State.readV_writeVs (s : State) (k : Nat) (bs : List Byte) (x : Reg) :
    (s.writeVs k bs).readV x =
      if k ≤ x.val ∧ x.val < k + bs.length then bs.getD (x.val - k) 0 else s.readV x := by
  induction bs generalizing s k with
  | nil => simp [State.writeVs, show ¬ (k ≤ x.val ∧ x.val < k) by omega]
  | cons b bs ih =>
    rw [State.writeVs, ih]
    simp only [List.length_cons]
    rcases Nat.lt_trichotomy x.val k with h | h | h
    · rw [if_neg (by omega), if_neg (by omega)]
      split
      · simp [Fin.ext_iff, show x.val ≠ k by omega]
      · rfl
    · have hk : k < 16 := by omega
      rw [if_neg (by omega), if_pos (by omega), dif_pos hk]
      simp [Fin.ext_iff, h]
    · obtain ⟨j, hj⟩ : ∃ j, x.val = k + 1 + j := ⟨x.val - (k + 1), by omega⟩
      rw [show x.val - (k + 1) = j by omega, show x.val - k = j + 1 by omega, List.getD_cons_succ]
      by_cases hb : x.val < k + 1 + bs.length
      · rw [if_pos (by omega), if_pos (by omega)]
      · rw [if_neg (by omega), if_neg (by omega)]
        split
        · simp [Fin.ext_iff, show x.val ≠ k by omega]
        · rfl

end Sys2Proof.Machine
end

