-- ==== Sys2Proof/Laws/Draw.lean ====
section
/-! SUPPORT. The sprite's pixels and what XORing them into a frame does (47_draw.md R190 to R192). -/

namespace Sys2Proof.Machine

theorem Frame.get_flip (f : Frame) (p q : Pixel) :
    (f.flip p).get q = if q = p then !f.get q else f.get q := by
  obtain ⟨px, py⟩ := p
  obtain ⟨qx, qy⟩ := q
  simp only [Frame.get, Frame.flip, Vector.getElem_set, Prod.mk.injEq, Fin.ext_iff]
  by_cases hx : px.val = qx.val
  · have hx' : px = qx := Fin.ext hx
    subst hx'
    by_cases hy : py.val = qy.val
    · have hy' : py = qy := Fin.ext hy
      subst hy'
      simp
    · simp [hy, Ne.symm hy]
  · simp [hx, Ne.symm hx]

@[simp] theorem Frame.get_clear (p : Pixel) : Frame.clear.get p = false := by
  simp [Frame.get, Frame.clear]

/-- Two frames with the same pixels are the same frame. -/
theorem Frame.ext {f g : Frame} (h : ∀ p, f.get p = g.get p) : f = g := by
  apply Vector.ext
  intro x hx
  apply Vector.ext
  intro y hy
  exact h (⟨x, hx⟩, ⟨y, hy⟩)

/-- Pixels XORed one after another, none twice: exactly they toggle, and the flag says whether one of
them was on. -/
theorem Frame.flipAll_spec (f : Frame) (e : Bool) (ps : List Pixel) (hn : ps.Nodup) :
    (∀ q, (f.flipAll e ps).1.get q = if q ∈ ps then !f.get q else f.get q) ∧
      ((f.flipAll e ps).2 = true ↔ e = true ∨ ∃ q ∈ ps, f.get q = true) := by
  induction ps generalizing f e with
  | nil => simp [Frame.flipAll]
  | cons p ps ih =>
    rw [List.nodup_cons] at hn
    obtain ⟨h1, h2⟩ := ih (f.flip p) (e || f.get p) hn.2
    refine ⟨fun q => ?_, ?_⟩
    · rw [Frame.flipAll, h1, Frame.get_flip]
      by_cases hq : q = p
      · subst hq
        simp [hn.1]
      · simp [hq]
    · rw [Frame.flipAll, h2]
      have : (∃ q ∈ ps, (f.flip p).get q = true) ↔ ∃ q ∈ ps, f.get q = true := by
        refine exists_congr fun q => and_congr_right fun hq => ?_
        rw [Frame.get_flip, if_neg]
        rintro rfl
        exact hn.1 hq
      rw [this]
      simp only [Bool.or_eq_true, List.mem_cons, exists_eq_or_imp, or_assoc]

theorem mem_rowPixels {cx cy : Byte} {r : Nat} {row : Byte} {p : Pixel} :
    p ∈ rowPixels cx cy r row ↔
      ∃ c, c < 8 ∧ row.getLsbD (7 - c) = true ∧ p = spritePixel cx cy r c := by
  simp only [rowPixels, List.mem_map, List.mem_filter, and_assoc]
  refine exists_congr fun c => and_congr ?_ (and_congr_right fun _ => eq_comm)
  simp only [List.mem_cons, List.not_mem_nil, or_false]
  omega

theorem mem_spritePixels {cx cy : Byte} {k : Nat} {rows : List Byte} {p : Pixel} :
    p ∈ spritePixels cx cy k rows ↔
      ∃ r c, r < rows.length ∧ c < 8 ∧ (rows.getD r 0).getLsbD (7 - c) = true ∧
        p = spritePixel cx cy (k + r) c := by
  induction rows generalizing k with
  | nil => simp [spritePixels]
  | cons row rows ih =>
    rw [spritePixels, List.mem_append, mem_rowPixels, ih]
    constructor
    · rintro (⟨c, hc, hb, rfl⟩ | ⟨r, c, hr, hc, hb, rfl⟩)
      · exact ⟨0, c, by simp, hc, by simpa using hb, rfl⟩
      · exact ⟨r + 1, c, by simpa using hr, hc, by simpa using hb, by rw [show k + (r + 1) = k + 1 + r by omega]⟩
    · rintro ⟨r, c, hr, hc, hb, rfl⟩
      cases r with
      | zero => exact .inl ⟨c, hc, by simpa using hb, rfl⟩
      | succ r =>
        exact .inr ⟨r, c, by simpa using hr, hc, by simpa using hb,
          by rw [show k + (r + 1) = k + 1 + r by omega]⟩

/-- A sprite never overlaps itself after wrapping: 8 columns fit in 64, up to 32 rows in 32 (R190). -/
theorem spritePixel_inj {cx cy : Byte} {k r r' c c' : Nat} (hr : r < 32) (hr' : r' < 32) (hc : c < 8)
    (hc' : c' < 8) (h : spritePixel cx cy (k + r) c = spritePixel cx cy (k + r') c') : r = r' ∧ c = c' := by
  simp only [spritePixel, Prod.mk.injEq, Fin.ext_iff, Fin.val_ofNat] at h
  omega

theorem nodup_rowPixels (cx cy : Byte) (r : Nat) (row : Byte) : (rowPixels cx cy r row).Nodup := by
  refine List.Nodup.map_on ?_ (List.Nodup.filter _ (by decide))
  intro c hc c' hc' h
  have hlt : ∀ d, d ∈ [0, 1, 2, 3, 4, 5, 6, 7] → d < 8 := by decide
  exact (spritePixel_inj (k := r) (r := 0) (r' := 0) (by omega) (by omega)
    (hlt c (List.mem_filter.1 hc).1) (hlt c' (List.mem_filter.1 hc').1) h).2

theorem nodup_spritePixels (cx cy : Byte) (k : Nat) (rows : List Byte) (h : rows.length ≤ 32) :
    (spritePixels cx cy k rows).Nodup := by
  induction rows generalizing k with
  | nil => exact List.nodup_nil
  | cons row rows ih =>
    simp only [List.length_cons] at h
    rw [spritePixels, List.nodup_append]
    refine ⟨nodup_rowPixels cx cy k row, ih (k + 1) (by omega), ?_⟩
    rintro p hp q hq rfl
    obtain ⟨c, hc, -, rfl⟩ := mem_rowPixels.1 hp
    obtain ⟨r, c', hr, hc', -, heq⟩ := mem_spritePixels.1 hq
    have heq' : spritePixel cx cy (k + 0) c = spritePixel cx cy (k + (r + 1)) c' := by
      rw [Nat.add_zero, heq, show k + (r + 1) = k + 1 + r by omega]
    have := spritePixel_inj (by omega) (by omega) hc hc' heq'
    omega

end Sys2Proof.Machine
end

