-- ==== Sys2Proof/Laws/PerInstr.lean ====
section
/-! SUPPORT. Statements made per instruction: the row of spec/opcode_table.json each instruction is
encoded by (30_encoding.md R85). -/

namespace Sys2Proof.Laws

/-- A row's fixed bits: a word matches the row when `w &&& mask = bits` (R85). -/
structure Row where
  mask : Word
  bits : Word
  deriving DecidableEq, Repr

/-- Format `NNN` and `XKK`: the leading nibble is fixed (R83). -/
def Row.family (h : Word) : Row := { mask := 0xF000, bits := h }

/-- Format `XY`: the leading and the last nibble are fixed (R83). -/
def Row.selector (h : Word) : Row := { mask := 0xF00F, bits := h }

/-- Format `X`: the leading nibble and the low byte are fixed (R83). -/
def Row.misc (h : Word) : Row := { mask := 0xF0FF, bits := h }

/-- The mask and match columns of R85, row by row. -/
def rowOf : Instr → Row
  | .cls => { mask := 0xFFFF, bits := 0x00E0 }
  | .ret => { mask := 0xFFFF, bits := 0x00EE }
  | .jp _ => .family 0x1000
  | .call _ => .family 0x2000
  | .seImm _ _ => .family 0x3000
  | .sneImm _ _ => .family 0x4000
  | .seReg _ _ => .selector 0x5000
  | .ldImm _ _ => .family 0x6000
  | .addImm _ _ => .family 0x7000
  | .ldReg _ _ => .selector 0x8000
  | .orReg _ _ => .selector 0x8001
  | .andReg _ _ => .selector 0x8002
  | .xorReg _ _ => .selector 0x8003
  | .addReg _ _ => .selector 0x8004
  | .sub _ _ => .selector 0x8005
  | .shr _ => .selector 0x8006
  | .subn _ _ => .selector 0x8007
  | .shl _ => .selector 0x800E
  | .sneReg _ _ => .selector 0x9000
  | .ldI _ => .family 0xA000
  | .jpV0 _ => .family 0xB000
  | .rnd _ _ => .family 0xC000
  | .drw _ _ _ => .family 0xD000
  | .skp _ => .misc 0xE09E
  | .sknp _ => .misc 0xE0A1
  | .ldFromDT _ => .misc 0xF007
  | .ldK _ => .misc 0xF00A
  | .ldDT _ => .misc 0xF015
  | .ldST _ => .misc 0xF018
  | .addI _ => .misc 0xF01E
  | .ldF _ => .misc 0xF029
  | .ldB _ => .misc 0xF033
  | .store _ => .misc 0xF055
  | .load _ => .misc 0xF065

/-- A packed word matches a row of its format. -/
theorem packNNN_mask (h : BitVec 4) (nnn : Addr) : packNNN h nnn &&& 0xF000 = packNNN h 0 := by
  apply BitVec.eq_of_getLsbD_eq
  intro i hi
  simp only [packNNN, BitVec.getLsbD_and, BitVec.getLsbD_append]
  rcases i with _|_|_|_|_|_|_|_|_|_|_|_|_|_|_|_|i <;> simp_all

theorem packXKK_mask (h : BitVec 4) (x : Reg) (kk : Byte) : packXKK h x kk &&& 0xF000 = packNNN h 0 := by
  apply BitVec.eq_of_getLsbD_eq
  intro i hi
  simp only [packXKK, packNNN, BitVec.getLsbD_and, BitVec.getLsbD_append]
  rcases i with _|_|_|_|_|_|_|_|_|_|_|_|_|_|_|_|i <;> simp_all

theorem packXKK_maskLow (h : BitVec 4) (x : Reg) (kk : Byte) :
    packXKK h x kk &&& 0xF0FF = packXKK h 0 kk := by
  apply BitVec.eq_of_getLsbD_eq
  intro i hi
  simp only [packXKK, BitVec.getLsbD_and, BitVec.getLsbD_append, bitsOfReg]
  rcases i with _|_|_|_|_|_|_|_|_|_|_|_|_|_|_|_|i <;> simp_all

theorem packXYN_mask (h : BitVec 4) (x y : Reg) (n : BitVec 4) :
    packXYN h x y n &&& 0xF000 = packNNN h 0 := by
  apply BitVec.eq_of_getLsbD_eq
  intro i hi
  simp only [packXYN, packNNN, BitVec.getLsbD_and, BitVec.getLsbD_append]
  rcases i with _|_|_|_|_|_|_|_|_|_|_|_|_|_|_|_|i <;> simp_all

theorem packXYN_maskLow (h : BitVec 4) (x y : Reg) (n : BitVec 4) :
    packXYN h x y n &&& 0xF00F = packXYN h 0 0 n := by
  apply BitVec.eq_of_getLsbD_eq
  intro i hi
  simp only [packXYN, BitVec.getLsbD_and, BitVec.getLsbD_append, bitsOfReg]
  rcases i with _|_|_|_|_|_|_|_|_|_|_|_|_|_|_|_|i <;> simp_all
  omega

namespace OpcodeRow

/-- The word of a well-formed instruction matches its own row of the opcode map (R85). -/
def Statement (i : Instr) : Prop := i.wf = true → encode i &&& (rowOf i).mask = (rowOf i).bits

theorem cls : Statement (.cls) := fun _ => by decide

theorem ret : Statement (.ret) := fun _ => by decide

theorem jp (nnn : Addr) : Statement (.jp nnn) := fun _ => packNNN_mask _ nnn

theorem call (nnn : Addr) : Statement (.call nnn) := fun _ => packNNN_mask _ nnn

theorem seImm (x : Reg) (kk : Byte) : Statement (.seImm x kk) := fun _ => packXKK_mask _ x kk

theorem sneImm (x : Reg) (kk : Byte) : Statement (.sneImm x kk) := fun _ => packXKK_mask _ x kk

theorem seReg (x y : Reg) : Statement (.seReg x y) := fun _ => packXYN_maskLow _ x y _

theorem ldImm (x : Reg) (kk : Byte) : Statement (.ldImm x kk) := fun _ => packXKK_mask _ x kk

theorem addImm (x : Reg) (kk : Byte) : Statement (.addImm x kk) := fun _ => packXKK_mask _ x kk

theorem ldReg (x y : Reg) : Statement (.ldReg x y) := fun _ => packXYN_maskLow _ x y _

theorem orReg (x y : Reg) : Statement (.orReg x y) := fun _ => packXYN_maskLow _ x y _

theorem andReg (x y : Reg) : Statement (.andReg x y) := fun _ => packXYN_maskLow _ x y _

theorem xorReg (x y : Reg) : Statement (.xorReg x y) := fun _ => packXYN_maskLow _ x y _

theorem addReg (x y : Reg) : Statement (.addReg x y) := fun _ => packXYN_maskLow _ x y _

theorem sub (x y : Reg) : Statement (.sub x y) := fun _ => packXYN_maskLow _ x y _

theorem shr (x : Reg) : Statement (.shr x) := fun _ => packXYN_maskLow _ x 0 _

theorem subn (x y : Reg) : Statement (.subn x y) := fun _ => packXYN_maskLow _ x y _

theorem shl (x : Reg) : Statement (.shl x) := fun _ => packXYN_maskLow _ x 0 _

theorem sneReg (x y : Reg) : Statement (.sneReg x y) := fun _ => packXYN_maskLow _ x y _

theorem ldI (nnn : Addr) : Statement (.ldI nnn) := fun _ => packNNN_mask _ nnn

theorem jpV0 (nnn : Addr) : Statement (.jpV0 nnn) := fun _ => packNNN_mask _ nnn

theorem rnd (x : Reg) (kk : Byte) : Statement (.rnd x kk) := fun _ => packXKK_mask _ x kk

theorem drw (x y : Reg) (n : Nat) : Statement (.drw x y n) := fun _ => packXYN_mask _ x y _

theorem skp (x : Reg) : Statement (.skp x) := fun _ => packXKK_maskLow _ x _

theorem sknp (x : Reg) : Statement (.sknp x) := fun _ => packXKK_maskLow _ x _

theorem ldFromDT (x : Reg) : Statement (.ldFromDT x) := fun _ => packXKK_maskLow _ x _

theorem ldK (x : Reg) : Statement (.ldK x) := fun _ => packXKK_maskLow _ x _

theorem ldDT (x : Reg) : Statement (.ldDT x) := fun _ => packXKK_maskLow _ x _

theorem ldST (x : Reg) : Statement (.ldST x) := fun _ => packXKK_maskLow _ x _

theorem addI (x : Reg) : Statement (.addI x) := fun _ => packXKK_maskLow _ x _

theorem ldF (x : Reg) : Statement (.ldF x) := fun _ => packXKK_maskLow _ x _

theorem ldB (x : Reg) : Statement (.ldB x) := fun _ => packXKK_maskLow _ x _

theorem store (x : Reg) : Statement (.store x) := fun _ => packXKK_maskLow _ x _

theorem load (x : Reg) : Statement (.load x) := fun _ => packXKK_maskLow _ x _

end OpcodeRow

end Sys2Proof.Laws
end

