-- ==== Sys2Proof/Laws/Tick.lean ====
section
/-! SUPPORT. What the event queue, the fetch, the ticks and each meaning answer, case by case; provers
cite these rather than unfold the step. -/

namespace Sys2Proof.Machine

/-! ### Events -/

/-- Taking an event moves nothing but the model's own event fields. -/
theorem State.takeEvent_eq (s : State) :
    ∃ es n, s.takeEvent.2 = { s with inputs := es, freeTicks := n } := by
  unfold State.takeEvent
  split
  · exact ⟨_, _, rfl⟩
  · exact ⟨_, _, rfl⟩

theorem State.takeEvent_cons {s : State} {e : Event} {es : List Event} (h : s.inputs = e :: es) :
    s.takeEvent = (e, { s with inputs := es }) := by
  simp [State.takeEvent, h]

theorem step_eq (s : State) : step s = react s.takeEvent.1 s.takeEvent.2 := rfl

theorem step_cons {s : State} {e : Event} {es : List Event} (h : s.inputs = e :: es) :
    step s = react e { s with inputs := es } := by
  rw [step_eq, State.takeEvent_cons h]

/-- A run of no steps. -/
theorem run_zero (s : State) : Sys2Proof.core.run 0 s = .next s := rfl

/-- A run of any machine goes on from the next state of its first step. -/
theorem machine_run_succ (M : Host.Core) (n : Nat) (s t : M.State) (h : M.step s = .next t) :
    M.run (n + 1) s = M.run n t := by
  simp only [Host.Core.run, h]

/-- A run goes on from the next state of its first step. -/
theorem run_succ {s t : State} (n : Nat) (h : step s = .next t) :
    Sys2Proof.core.run (n + 1) s = Sys2Proof.core.run n t :=
  machine_run_succ Sys2Proof.core n s t h

/-! ### Fetch (30_encoding.md R80, R90) -/

theorem State.fetch_some {s : State} (h : s.pc.toNat + 1 < Config.memSize) :
    s.fetch = some (s.readByte s.pc.toNat ++ s.readByte (s.pc.toNat + 1)) := by
  rw [State.fetch, if_pos h]
  rfl

theorem State.fetch_none {s : State} (h : Config.memSize ≤ s.pc.toNat + 1) : s.fetch = none := by
  rw [State.fetch, if_neg (by omega)]

/-- The fetch depends on the program counter and the memory alone. -/
theorem State.fetch_congr {s t : State} (hp : t.pc = s.pc) (hm : t.mem = s.mem) : t.fetch = s.fetch := by
  simp only [State.fetch, State.readByte, hp, hm]

/-! ### The instruction tick (R90) -/

theorem instrTick_frozen {s : State} (ks : Keys) (r : Byte) (h : ¬ s.live) :
    instrTick ks r s = .next s := by
  simp [instrTick, (State.frozen_iff_not_live s).2 h]

theorem instrTick_awaiting {s : State} {x : Reg} (ks : Keys) (r : Byte) (h : s.live)
    (ha : s.awaiting = some x) : instrTick ks r s = .next ((s.latch ks r).awaitCheck x) := by
  simp [instrTick, State.frozen_of_live h, ha]

theorem instrTick_running {s : State} (ks : Keys) (r : Byte) (h : s.live) (ha : s.awaiting = none) :
    instrTick ks r s = fetchExecute (s.latch ks r) := by
  simp [instrTick, State.frozen_of_live h, ha]

theorem fetchExecute_none {s : State} (h : s.fetch = none) :
    fetchExecute s = .next (s.raise .fetch none .none) := by
  simp only [fetchExecute, h]

theorem fetchExecute_illegal {s : State} {w : Word} {e : Illegal} (h : s.fetch = some w)
    (hd : decode w = .error e) : fetchExecute s = .next (s.raise .decode (some w) .none) := by
  simp only [fetchExecute, h, hd]

theorem fetchExecute_ok {s : State} {w : Word} {i : Instr} (h : s.fetch = some w)
    (hd : decode w = .ok i) : fetchExecute s = exec i s := by
  simp only [fetchExecute, h, hd]

/-! ### The timer tick (60_exceptions.md R249) -/

theorem timerTick_live {s : State} (h : s.live) :
    timerTick s = { s with dt := countDown s.dt, st := countDown s.st, fbOut := s.fb } := by
  simp [timerTick, State.frozen_of_live h]

theorem timerTick_frozen {s : State} (h : ¬ s.live) : timerTick s = s := by
  simp [timerTick, (State.frozen_iff_not_live s).2 h]

@[simp] theorem toNat_countDown (b : Byte) : (countDown b).toNat = b.toNat - 1 := by
  unfold countDown
  split
  · next h => simp [h]
  · next h =>
    have : b.toNat ≠ 0 := fun h0 => h (BitVec.eq_of_toNat_eq (by simpa using h0))
    rw [BitVec.toNat_sub]
    have := b.isLt
    simp
    omega

/-! ### The awaiting-key check (48_input_timer.md R203) -/

theorem State.awaitCheck_some {s : State} {x : Reg} {k : Fin 16} (h : s.newKey = some k) :
    s.awaitCheck x = { s.writeV x (BitVec.ofNat 8 k.val) with awaiting := none }.advance := by
  simp only [State.awaitCheck, h]

theorem State.awaitCheck_none {s : State} {x : Reg} (h : s.newKey = none) : s.awaitCheck x = s := by
  simp only [State.awaitCheck, h]

/-! ### Meanings with a check -/

theorem exec_ret_ok {s : State} (h : 0 < s.sp.val) :
    exec .ret s = .next { s with sp := ⟨s.sp.val - 1, by omega⟩, pc := s.stack[s.sp.val - 1]'(by omega) } := by
  simp only [exec, execRet, State.pop_of_pos h]
  rfl

theorem exec_ret_error {s : State} (h : s.sp.val = 0) :
    exec .ret s = raiseIn .ret .stackUnderflow .none s := by
  simp only [exec, execRet, State.pop_of_empty h]

theorem exec_call_ok {s : State} (nnn : Addr) (h : s.sp.val < 16) :
    exec (.call nnn) s = .next { s with
      stack := s.stack.set s.sp.val (s.pc + 2), sp := ⟨s.sp.val + 1, by omega⟩, pc := addrOf nnn } := by
  simp only [exec, execCall, State.push_of_lt (s.pc + 2) h]
  rfl

theorem exec_call_error {s : State} (nnn : Addr) (h : s.sp.val = 16) :
    exec (.call nnn) s = raiseIn (.call nnn) .stackOverflow .none s := by
  simp only [exec, execCall, State.push_of_full (s.pc + 2) h]

/-- What DRW leaves: the frame with the sprite's pixels XORed and the collision flag. -/
def State.drawn (s : State) (x y : Reg) (n : Nat) : Frame × Bool :=
  s.fb.flipAll false (spritePixels (s.readV x) (s.readV y) 0 (s.mem.readBytes s.i.toNat n))

/-- The pixels a DRW toggles are those under a 1 bit of its sprite (47_draw.md R190, R191). -/
theorem mem_spritePixels_iff_covers (s : State) (x y : Reg) (n : Nat) (p : Pixel) :
    p ∈ spritePixels (s.readV x) (s.readV y) 0 (s.mem.readBytes s.i.toNat n) ↔ SpriteCovers s x y n p := by
  rw [mem_spritePixels, SpriteCovers, Memory.length_readBytes]
  refine exists_congr fun r => exists_congr fun c => ?_
  constructor
  · rintro ⟨h1, h2, h3, rfl⟩
    rw [Memory.getD_readBytes _ _ _ _ h1] at h3
    exact ⟨h1, h2, h3, by simp [spritePixel], by simp [spritePixel]⟩
  · rintro ⟨h1, h2, h3, h4, h5⟩
    refine ⟨h1, h2, by rw [Memory.getD_readBytes _ _ _ _ h1]; exact h3, ?_⟩
    apply Prod.ext <;> apply Fin.ext <;> simp [spritePixel, h4, h5]

theorem exec_drw_ok {s : State} (x y : Reg) (n : Nat) (h : n = 0 ∨ s.i.toNat + n ≤ Config.memSize) :
    exec (.drw x y n) s =
      .next ({ s with fb := (s.drawn x y n).1 }.writeFlag (s.drawn x y n).2).advance := by
  simp only [exec, execDrw, State.indexAddr, State.memRead_ok h]
  rfl

theorem exec_drw_error {s : State} (x y : Reg) (n : Nat) (h : ¬ (n = 0 ∨ s.i.toNat + n ≤ Config.memSize)) :
    exec (.drw x y n) s = raiseIn (.drw x y n) .memory (.addr (Memory.firstBad s.i.toNat)) s := by
  simp only [exec, execDrw, State.indexAddr, State.memRead_error h]

theorem exec_skp_ok {s : State} (x : Reg) (h : (s.readV x).toNat < 16) :
    exec (.skp x) s = .next (s.skipIf s.keys[(s.readV x).toNat]) := by
  simp only [exec, execSkp, h, dif_pos, Keys.pressed]

theorem exec_skp_error {s : State} (x : Reg) (h : 15 < (s.readV x).toNat) :
    exec (.skp x) s = raiseIn (.skp x) .keyIndex (.value (s.readV x)) s := by
  simp only [exec, execSkp]
  rw [dif_neg (by omega)]

theorem exec_sknp_ok {s : State} (x : Reg) (h : (s.readV x).toNat < 16) :
    exec (.sknp x) s = .next (s.skipIf !s.keys[(s.readV x).toNat]) := by
  simp only [exec, execSknp, h, dif_pos, Keys.pressed]

theorem exec_sknp_error {s : State} (x : Reg) (h : 15 < (s.readV x).toNat) :
    exec (.sknp x) s = raiseIn (.sknp x) .keyIndex (.value (s.readV x)) s := by
  simp only [exec, execSknp]
  rw [dif_neg (by omega)]

theorem exec_ldB_ok {s : State} (x : Reg) (h : s.i.toNat + 3 ≤ Config.memSize) :
    exec (.ldB x) s =
      .next { s with mem := s.mem.writeBytes s.i.toNat (decimalDigits (s.readV x)) }.advance := by
  have h' : (decimalDigits (s.readV x)).length = 0 ∨
      s.i.toNat + (decimalDigits (s.readV x)).length ≤ Config.memSize := .inr h
  simp only [exec, execLdB, State.indexAddr, State.memWrite_ok h']

theorem exec_ldB_error {s : State} (x : Reg) (h : Config.memSize < s.i.toNat + 3) :
    exec (.ldB x) s = raiseIn (.ldB x) .memory (.addr (Memory.firstBad s.i.toNat)) s := by
  have h' : ¬ ((decimalDigits (s.readV x)).length = 0 ∨
      s.i.toNat + (decimalDigits (s.readV x)).length ≤ Config.memSize) := by
    simp only [decimalDigits, List.length_cons, List.length_nil, Config.memSize] at h ⊢
    omega
  simp only [exec, execLdB, State.indexAddr, State.memWrite_error h']

theorem exec_store_ok {s : State} (x : Reg) (h : s.i.toNat + x.val < Config.memSize) :
    exec (.store x) s = .next ({ s with
      mem := s.mem.writeBytes s.i.toNat (s.readVs 0 (x.val + 1)) }.writeI (s.indexPast x)).advance := by
  have h' : (s.readVs 0 (x.val + 1)).length = 0 ∨
      s.i.toNat + (s.readVs 0 (x.val + 1)).length ≤ Config.memSize := by
    rw [State.length_readVs]; omega
  simp only [exec, execStore, State.indexAddr, State.memWrite_ok h']

theorem exec_store_error {s : State} (x : Reg) (h : Config.memSize ≤ s.i.toNat + x.val) :
    exec (.store x) s = raiseIn (.store x) .memory (.addr (Memory.firstBad s.i.toNat)) s := by
  have h' : ¬ ((s.readVs 0 (x.val + 1)).length = 0 ∨
      s.i.toNat + (s.readVs 0 (x.val + 1)).length ≤ Config.memSize) := by
    rw [State.length_readVs]; omega
  simp only [exec, execStore, State.indexAddr, State.memWrite_error h']

theorem exec_load_ok {s : State} (x : Reg) (h : s.i.toNat + x.val < Config.memSize) :
    exec (.load x) s =
      .next ((s.writeVs 0 (s.mem.readBytes s.i.toNat (x.val + 1))).writeI (s.indexPast x)).advance := by
  have h' : x.val + 1 = 0 ∨ s.i.toNat + (x.val + 1) ≤ Config.memSize := by omega
  simp only [exec, execLoad, State.indexAddr, State.memRead_ok h']

theorem exec_load_error {s : State} (x : Reg) (h : Config.memSize ≤ s.i.toNat + x.val) :
    exec (.load x) s = raiseIn (.load x) .memory (.addr (Memory.firstBad s.i.toNat)) s := by
  have h' : ¬ (x.val + 1 = 0 ∨ s.i.toNat + (x.val + 1) ≤ Config.memSize) := by omega
  simp only [exec, execLoad, State.indexAddr, State.memRead_error h']

/-! ### Where a meaning raises -/

/-- The errors an instruction can raise while it executes, with the state that makes it raise
(60_exceptions.md R240, R244). -/
inductive Raises (s : State) : Instr → ErrorKind → ErrorInfo → Prop where
  | ret (h : s.sp.val = 0) : Raises s .ret .stackUnderflow .none
  | call (nnn : Addr) (h : s.sp.val = 16) : Raises s (.call nnn) .stackOverflow .none
  | drw (x y : Reg) (n : Nat) (h : ¬ (n = 0 ∨ s.i.toNat + n ≤ Config.memSize)) :
      Raises s (.drw x y n) .memory (.addr (Memory.firstBad s.i.toNat))
  | skp (x : Reg) (h : 15 < (s.readV x).toNat) : Raises s (.skp x) .keyIndex (.value (s.readV x))
  | sknp (x : Reg) (h : 15 < (s.readV x).toNat) : Raises s (.sknp x) .keyIndex (.value (s.readV x))
  | ldB (x : Reg) (h : Config.memSize < s.i.toNat + 3) :
      Raises s (.ldB x) .memory (.addr (Memory.firstBad s.i.toNat))
  | store (x : Reg) (h : Config.memSize ≤ s.i.toNat + x.val) :
      Raises s (.store x) .memory (.addr (Memory.firstBad s.i.toNat))
  | load (x : Reg) (h : Config.memSize ≤ s.i.toNat + x.val) :
      Raises s (.load x) .memory (.addr (Memory.firstBad s.i.toNat))

/-- Everything `exec` can answer: a fatal error with nothing else changed, or a next state that leaves
`FAULT`, `RUN`, the keypad latch, the display output and the ports alone. -/
theorem exec_cases (i : Instr) (s : State) :
    (∃ k e, Raises s i k e ∧ exec i s = raiseIn i k e s) ∨
    (∃ t, exec i s = .next t ∧ t.fault = s.fault ∧ t.run = s.run ∧ t.keys = s.keys ∧
      t.keysPrev = s.keysPrev ∧ t.fbOut = s.fbOut ∧ t.inputs = s.inputs ∧ t.freeTicks = s.freeTicks ∧
      t.rngIn = s.rngIn) := by
  cases i
  case ret =>
    rcases Nat.eq_zero_or_pos s.sp.val with h | h
    · exact .inl ⟨_, _, .ret h, exec_ret_error h⟩
    · exact .inr ⟨_, exec_ret_ok h, rfl, rfl, rfl, rfl, rfl, rfl, rfl, rfl⟩
  case call nnn =>
    by_cases h : s.sp.val < 16
    · exact .inr ⟨_, exec_call_ok nnn h, rfl, rfl, rfl, rfl, rfl, rfl, rfl, rfl⟩
    · have h' : s.sp.val = 16 := by omega
      exact .inl ⟨_, _, .call nnn h', exec_call_error nnn h'⟩
  case drw x y n =>
    by_cases h : n = 0 ∨ s.i.toNat + n ≤ Config.memSize
    · exact .inr ⟨_, exec_drw_ok x y n h, rfl, rfl, rfl, rfl, rfl, rfl, rfl, rfl⟩
    · exact .inl ⟨_, _, .drw x y n h, exec_drw_error x y n h⟩
  case skp x =>
    by_cases h : (s.readV x).toNat < 16
    · exact .inr ⟨_, exec_skp_ok x h, rfl, rfl, rfl, rfl, rfl, rfl, rfl, rfl⟩
    · exact .inl ⟨_, _, .skp x (by omega), exec_skp_error x (by omega)⟩
  case sknp x =>
    by_cases h : (s.readV x).toNat < 16
    · exact .inr ⟨_, exec_sknp_ok x h, rfl, rfl, rfl, rfl, rfl, rfl, rfl, rfl⟩
    · exact .inl ⟨_, _, .sknp x (by omega), exec_sknp_error x (by omega)⟩
  case ldB x =>
    by_cases h : s.i.toNat + 3 ≤ Config.memSize
    · exact .inr ⟨_, exec_ldB_ok x h, rfl, rfl, rfl, rfl, rfl, rfl, rfl, rfl⟩
    · exact .inl ⟨_, _, .ldB x (by omega), exec_ldB_error x (by omega)⟩
  case store x =>
    by_cases h : s.i.toNat + x.val < Config.memSize
    · exact .inr ⟨_, exec_store_ok x h, rfl, rfl, rfl, rfl, rfl, rfl, rfl, rfl⟩
    · exact .inl ⟨_, _, .store x (by omega), exec_store_error x (by omega)⟩
  case load x =>
    by_cases h : s.i.toNat + x.val < Config.memSize
    · obtain ⟨v', hv⟩ := s.writeVs_eq 0 (s.mem.readBytes s.i.toNat (x.val + 1))
      refine .inr ⟨_, exec_load_ok x h, ?_⟩
      rw [hv]
      exact ⟨rfl, rfl, rfl, rfl, rfl, rfl, rfl, rfl⟩
    · exact .inl ⟨_, _, .load x (by omega), exec_load_error x (by omega)⟩
  all_goals exact .inr ⟨_, rfl, rfl, rfl, rfl, rfl, rfl, rfl, rfl, rfl⟩

end Sys2Proof.Machine
end

