-- ==== Sys2Proof/Tests/Slice0.lean ====
section
/-! SUPPORT. Own tests: the smoke test of WellFormed, a word for every constructor written out from the
spec's encoding (30_encoding.md R85), single steps with the results of 95_test_vectors.md, and for
every statement with hypotheses a state and operands that meet them. -/

namespace Sys2Proof.Tests

open Sys2Proof Sys2Proof.Machine

/-! ### WellFormed -/

theorem test_wf_refuses_sixteen_rows : Instr.wf (.drw 0 0 16) = false := by decide

theorem test_wf_admits_fifteen_rows : Instr.wf (.drw 0 0 15) = true := by decide

/-! ### Decoding, word by word (R85) -/

theorem test_decode_cls : decode 0b0000000011100000 = .ok .cls := by decide
theorem test_decode_ret : decode 0b0000000011101110 = .ok .ret := by decide
theorem test_decode_jp : decode 0b0001001000110100 = .ok (.jp 0x234) := by decide
theorem test_decode_call : decode 0b0010101111001101 = .ok (.call 0xBCD) := by decide
theorem test_decode_seImm : decode 0b0011001101000010 = .ok (.seImm 3 0x42) := by decide
theorem test_decode_sneImm : decode 0b0100001101000011 = .ok (.sneImm 3 0x43) := by decide
theorem test_decode_seReg : decode 0b0101000100100000 = .ok (.seReg 1 2) := by decide
theorem test_decode_ldImm : decode 0b0110000000000101 = .ok (.ldImm 0 5) := by decide
theorem test_decode_addImm : decode 0b0111000000000011 = .ok (.addImm 0 3) := by decide
theorem test_decode_ldReg : decode 0b1000010111110000 = .ok (.ldReg 5 15) := by decide
theorem test_decode_orReg : decode 0b1000010111110001 = .ok (.orReg 5 15) := by decide
theorem test_decode_andReg : decode 0b1000010111110010 = .ok (.andReg 5 15) := by decide
theorem test_decode_xorReg : decode 0b1000010111110011 = .ok (.xorReg 5 15) := by decide
theorem test_decode_addReg : decode 0b1000010111110100 = .ok (.addReg 5 15) := by decide
theorem test_decode_sub : decode 0b1000010111110101 = .ok (.sub 5 15) := by decide
theorem test_decode_shr : decode 0b1000101010110110 = .ok (.shr 0xA) := by decide
theorem test_decode_subn : decode 0b1000010111110111 = .ok (.subn 5 15) := by decide
theorem test_decode_shl : decode 0b1000101010111110 = .ok (.shl 0xA) := by decide
theorem test_decode_sneReg : decode 0b1001000100100000 = .ok (.sneReg 1 2) := by decide
theorem test_decode_ldI : decode 0b1010001011110000 = .ok (.ldI 0x2F0) := by decide
theorem test_decode_jpV0 : decode 0b1011001100000001 = .ok (.jpV0 0x301) := by decide
theorem test_decode_rnd : decode 0b1100001100001111 = .ok (.rnd 3 0x0F) := by decide
theorem test_decode_drw : decode 0b1101010010100111 = .ok (.drw 4 0xA 7) := by decide
theorem test_decode_skp : decode 0b1110010110011110 = .ok (.skp 5) := by decide
theorem test_decode_sknp : decode 0b1110010110100001 = .ok (.sknp 5) := by decide
theorem test_decode_ldFromDT : decode 0b1111000100000111 = .ok (.ldFromDT 1) := by decide
theorem test_decode_ldK : decode 0b1111001100001010 = .ok (.ldK 3) := by decide
theorem test_decode_ldDT : decode 0b1111000100010101 = .ok (.ldDT 1) := by decide
theorem test_decode_ldST : decode 0b1111001000011000 = .ok (.ldST 2) := by decide
theorem test_decode_addI : decode 0b1111001000011110 = .ok (.addI 2) := by decide
theorem test_decode_ldF : decode 0b1111010000101001 = .ok (.ldF 4) := by decide
theorem test_decode_ldB : decode 0b1111001100110011 = .ok (.ldB 3) := by decide
theorem test_decode_store : decode 0b1111001001010101 = .ok (.store 2) := by decide
theorem test_decode_load : decode 0b1111001001100101 = .ok (.load 2) := by decide

/-- The illegal words at the edges of the families of R86. -/
theorem test_illegal_words :
    decode 0x0000 = .error .system ∧ decode 0x0FFF = .error .system ∧ decode 0x00E1 = .error .system ∧
    decode 0x5121 = .error .compare ∧ decode 0x912F = .error .compare ∧
    decode 0x8008 = .error .arithmetic ∧ decode 0x800D = .error .arithmetic ∧
    decode 0x800F = .error .arithmetic ∧
    decode 0xE09F = .error .key ∧ decode 0xE0A0 = .error .key ∧
    decode 0xF000 = .error .misc ∧ decode 0xF066 = .error .misc := by decide

/-- Bytes are read in big-endian order; one byte is no instruction (R80). -/
theorem test_decode_bytes :
    decodeBytes [0x60, 0x05, 0x70] = .ok (.ldImm 0 5, [0x70]) ∧ decodeBytes [0x60] = .error .truncated := by
  decide

theorem test_decode_table_word :
    decodeTableWord 16 0xD4A7 = some (.drw 4 0xA 7) ∧ decodeTableWord 16 0x0123 = none := by decide

/-! ### Single steps -/

/-- Whether a step goes on to a state that meets a test. -/
def gives (o : Result) (test : State → Bool) : Bool :=
  match o with
  | .next t => test t
  | _ => false

/-- One step that runs a word where the state fetches it. -/
def runs (w : Nat) (s : State) : Result := step (s.withFetchWord 16 w)

/-- The construction state with registers set. -/
def regs (l : List (Reg × Byte)) : State := l.foldl (fun s p => s.writeV p.1 p.2) State.reset

/-- A state whose memory holds bytes at an address, which is also in `I`. -/
def withBytes (s : State) (a : Nat) (bytes : List Byte) : State :=
  { s with i := BitVec.ofNat 16 a, mem := s.mem.writeBytes a bytes }

/-- A keypad with the listed keys pressed. -/
def keysOf (l : List (Fin 16)) : Keys := l.foldl (fun ks k => ks.set k.val true) State.reset.keys

/-- A frame with the listed pixels on. -/
def frameOf (l : List Pixel) : Frame := l.foldl Frame.flip Frame.clear

/-- `F(k, pc, w)` with nothing else written that the test names. -/
def halted (t : State) (kind : ErrorKind) (pc w : Word) (info : ErrorInfo) : Bool :=
  decide (t.fault = some { kind := kind, pc := pc, word := some w, info := info }) && decide (t.pc = pc)

/-- V-SYS-1. -/
theorem test_cls : gives (runs 0x00E0 { State.reset with fb := frameOf [(3, 4), (63, 31)] })
    (fun t => !t.fb.get (3, 4) && !t.fb.get (63, 31) && decide (t.pc = 0x202)) = true := by decide

/-- V-SYS-2. -/
theorem test_ret : gives (runs 0x00EE { State.reset with sp := 1, stack := State.reset.stack.set 0 0x202, pc := 0x300 })
    (fun t => decide (t.sp = 0 ∧ t.pc = 0x202 ∧ t.stack[0] = 0x202)) = true := by decide

/-- V-SYS-3. -/
theorem test_ret_underflow : gives (runs 0x00EE State.reset)
    (fun t => halted t .stackUnderflow 0x200 0x00EE .none) = true := by decide

/-- V-SYS-4. -/
theorem test_sys_is_illegal : gives (runs 0x0123 State.reset)
    (fun t => halted t .decode 0x200 0x0123 .none) = true := by decide

/-- V-FLOW-1 and V-FLOW-2. -/
theorem test_jp : gives (runs 0x1234 State.reset) (fun t => decide (t.pc = 0x234)) = true ∧
    gives (runs 0x1201 State.reset) (fun t => decide (t.pc = 0x201)) = true := by decide

/-- V-FLOW-3, the tick after the jump. -/
theorem test_fetch_at_the_top : gives (instrTick State.reset.keys 0 { State.reset with pc := 0xFFF })
    (fun t => decide (t.fault = some { kind := .fetch, pc := 0xFFF, word := none, info := .none })) = true := by
  decide

/-- V-FLOW-5. -/
theorem test_call : gives (runs 0x2500 { State.reset with sp := 15, pc := 0x400 })
    (fun t => decide (t.stack[15] = 0x402 ∧ t.sp = 16 ∧ t.pc = 0x500)) = true := by decide

/-- V-FLOW-6. -/
theorem test_call_overflow : gives (runs 0x2500 { State.reset with sp := 16, pc := 0x400 })
    (fun t => halted t .stackOverflow 0x400 0x2500 .none && decide (t.sp = 16)) = true := by decide

/-- V-COND-1 and V-COND-2. -/
theorem test_seImm : gives (runs 0x3342 (regs [(3, 0x42)])) (fun t => decide (t.pc = 0x204)) = true ∧
    gives (runs 0x3343 (regs [(3, 0x42)])) (fun t => decide (t.pc = 0x202)) = true := by decide

/-- V-COND-3 and V-COND-4. -/
theorem test_sneImm : gives (runs 0x4342 (regs [(3, 0x42)])) (fun t => decide (t.pc = 0x202)) = true ∧
    gives (runs 0x4300 (regs [(3, 0x42)])) (fun t => decide (t.pc = 0x204)) = true := by decide

/-- V-COND-5 and V-COND-7. -/
theorem test_seReg : gives (runs 0x5120 (regs [(1, 7), (2, 7)])) (fun t => decide (t.pc = 0x204)) = true ∧
    gives (runs 0x5120 (regs [(1, 7), (2, 8)])) (fun t => decide (t.pc = 0x202)) = true := by decide

/-- V-COND-8 and V-COND-9. -/
theorem test_sneReg : gives (runs 0x9120 (regs [(1, 7), (2, 8)])) (fun t => decide (t.pc = 0x204)) = true ∧
    gives (runs 0x9110 (regs [(1, 7)])) (fun t => decide (t.pc = 0x202)) = true := by decide

/-- V-LD-1 and V-LD-2. -/
theorem test_ldImm : gives (runs 0x6005 State.reset) (fun t => decide (t.readV 0 = 5 ∧ t.pc = 0x202)) = true ∧
    gives (runs 0x6FAB State.reset) (fun t => decide (t.readV 0xF = 0xAB)) = true := by decide

/-- V-LD-3. -/
theorem test_ldReg : gives (runs 0x8010 (regs [(1, 0x9C)])) (fun t => decide (t.readV 0 = 0x9C)) = true := by
  decide

/-- V-AR-2. -/
theorem test_addImm_wraps : gives (runs 0x7001 (regs [(0, 0xFF), (0xF, 0x77)]))
    (fun t => decide (t.readV 0 = 0 ∧ t.readV 0xF = 0x77)) = true := by decide

/-- V-AR-6. -/
theorem test_addReg_flag_last : gives (runs 0x8F14 (regs [(0xF, 0x80), (1, 0x80)]))
    (fun t => decide (t.readV 0xF = 1)) = true := by decide

/-- V-AR-7. -/
theorem test_addReg_flag_operand : gives (runs 0x80F4 (regs [(0, 1), (0xF, 0xFF)]))
    (fun t => decide (t.readV 0 = 0 ∧ t.readV 0xF = 1)) = true := by decide

/-- V-AR-9. -/
theorem test_sub_borrow : gives (runs 0x8015 (regs [(0, 5), (1, 7)]))
    (fun t => decide (t.readV 0 = 0xFE ∧ t.readV 0xF = 0)) = true := by decide

/-- V-AR-10. -/
theorem test_sub_equal : gives (runs 0x8015 (regs [(0, 5), (1, 5)]))
    (fun t => decide (t.readV 0 = 0 ∧ t.readV 0xF = 1)) = true := by decide

/-- V-AR-13. -/
theorem test_subn : gives (runs 0x8017 (regs [(0, 5), (1, 7)]))
    (fun t => decide (t.readV 0 = 2 ∧ t.readV 0xF = 1)) = true := by decide

/-- V-AR-14. -/
theorem test_subn_borrow : gives (runs 0x8017 (regs [(0, 7), (1, 5)]))
    (fun t => decide (t.readV 0 = 0xFE ∧ t.readV 0xF = 0)) = true := by decide

/-- V-BS-1. -/
theorem test_orReg : gives (runs 0x8011 (regs [(0, 0x0F), (1, 0xF0), (0xF, 0x55)]))
    (fun t => decide (t.readV 0 = 0xFF ∧ t.readV 0xF = 0x55)) = true := by decide

/-- V-BS-2. -/
theorem test_andReg : gives (runs 0x8012 (regs [(0, 0x3C), (1, 0x0F), (0xF, 0x55)]))
    (fun t => decide (t.readV 0 = 0x0C ∧ t.readV 0xF = 0x55)) = true := by decide

/-- V-BS-3. -/
theorem test_xorReg : gives (runs 0x8013 (regs [(0, 0x3C), (1, 0x0F)]))
    (fun t => decide (t.readV 0 = 0x33)) = true := by decide

/-- V-BS-6. -/
theorem test_shr_ignores_y : gives (runs 0x8016 (regs [(0, 4), (1, 0xFF)]))
    (fun t => decide (t.readV 0 = 2 ∧ t.readV 0xF = 0 ∧ t.readV 1 = 0xFF)) = true := by decide

/-- V-BS-8. -/
theorem test_shr_flag_last : gives (runs 0x8F06 (regs [(0xF, 2)]))
    (fun t => decide (t.readV 0xF = 0)) = true := by decide

/-- V-BS-9. -/
theorem test_shl : gives (runs 0x800E (regs [(0, 0x81)]))
    (fun t => decide (t.readV 0 = 2 ∧ t.readV 0xF = 1)) = true := by decide

/-- V-BS-12. -/
theorem test_shl_flag_last : gives (runs 0x8F0E (regs [(0xF, 0x81)]))
    (fun t => decide (t.readV 0xF = 1)) = true := by decide

/-- V-RA-1. -/
theorem test_rnd : gives (runs 0xC30F { State.reset with rngIn := 0xA7 })
    (fun t => decide (t.readV 3 = 7)) = true := by decide

/-- V-RA-4. -/
theorem test_ldI : gives (runs 0xA2F0 { State.reset with i := 0x1234 })
    (fun t => decide (t.i = 0x02F0)) = true := by decide

/-- V-RA-6. -/
theorem test_addI_wraps : gives (runs 0xF01E { regs [(0, 1)] with i := 0xFFFF })
    (fun t => decide (t.i = 0)) = true := by decide

/-- V-RA-7. -/
theorem test_addI_no_flag : gives (runs 0xF01E { regs [(0, 1)] with i := 0x0FFF })
    (fun t => decide (t.i = 0x1000 ∧ t.readV 0xF = 0)) = true := by decide

/-- V-RA-9. -/
theorem test_jpV0_beyond : gives (runs 0xBFFF (regs [(0, 0xFF)]))
    (fun t => decide (t.pc = 0x10FE)) = true := by decide

/-- V-RA-10. -/
theorem test_jpV0 : gives (runs 0xB300 (regs [(5, 0x40)])) (fun t => decide (t.pc = 0x300)) = true := by
  decide

/-- V-DR-3: the columns wrap. -/
theorem test_drw_wraps : gives (runs 0xD011 (withBytes (regs [(0, 60)]) 0x300 [0xFF]))
    (fun t => decide (t.fb = frameOf [(60, 0), (61, 0), (62, 0), (63, 0), (0, 0), (1, 0), (2, 0), (3, 0)]) &&
      decide (t.readV 0xF = 0)) = true := by decide

/-- V-DR-6: a pixel turned off is a collision. -/
theorem test_drw_collision :
    gives (runs 0xD011 { withBytes (regs [(0, 4), (1, 5)]) 0x300 [0xC0] with fb := frameOf [(5, 5)] })
      (fun t => decide (t.fb = frameOf [(4, 5)]) && decide (t.readV 0xF = 1)) = true := by decide

/-- V-IT-1 and V-IT-2. -/
theorem test_skp :
    gives (runs 0xE59E { regs [(5, 0xA)] with keys := keysOf [0xA] }) (fun t => decide (t.pc = 0x204)) = true ∧
    gives (runs 0xE59E (regs [(5, 0xA)])) (fun t => decide (t.pc = 0x202)) = true := by decide

/-- V-IT-5. -/
theorem test_skp_key_index : gives (runs 0xE59E (regs [(5, 0x10)]))
    (fun t => halted t .keyIndex 0x200 0xE59E (.value 0x10)) = true := by decide

/-- V-IT-3 and V-IT-4. -/
theorem test_sknp :
    gives (runs 0xE5A1 { regs [(5, 0xA)] with keys := keysOf [0xA] }) (fun t => decide (t.pc = 0x202)) = true ∧
    gives (runs 0xE5A1 (regs [(5, 0xA)])) (fun t => decide (t.pc = 0x204)) = true := by decide

/-- V-IT-6. -/
theorem test_sknp_key_index : gives (runs 0xE5A1 (regs [(5, 0xFF)]))
    (fun t => halted t .keyIndex 0x200 0xE5A1 (.value 0xFF)) = true := by decide

/-- V-IT-7. -/
theorem test_ldK : gives (runs 0xF30A { State.reset with pc := 0x210 })
    (fun t => decide (t.awaiting = some 3 ∧ t.pc = 0x210)) = true := by decide

/-- V-IT-8: of two keys the lower one, and the wait ends. -/
theorem test_ldK_resolves :
    gives (instrTick (keysOf [0xC, 7]) 0 { State.reset with awaiting := some 3, pc := 0x210 })
      (fun t => decide (t.readV 3 = 7 ∧ t.awaiting = none ∧ t.pc = 0x212 ∧ t.keys = keysOf [7, 0xC] ∧
        t.keysPrev = keysOf [])) = true := by decide

/-- V-IT-12. -/
theorem test_ldFromDT : gives (runs 0xF107 { State.reset with dt := 0x3C })
    (fun t => decide (t.readV 1 = 0x3C)) = true := by decide

/-- V-IT-13. -/
theorem test_ldDT : gives (runs 0xF115 (regs [(1, 0x3C)])) (fun t => decide (t.dt = 0x3C)) = true := by decide

/-- V-IT-14. -/
theorem test_ldST : gives (runs 0xF218 (regs [(2, 2)]))
    (fun t => decide (t.st = 2) && t.outputs.audioOn && (timerTick t).outputs.audioOn &&
      !(timerTick (timerTick t)).outputs.audioOn) = true := by decide

/-- V-IT-16. -/
theorem test_timer_tick : gives (step { State.reset with dt := 1, fb := frameOf [(1, 2)], inputs := [.timerTick] })
    (fun t => decide (t.dt = 0 ∧ t.st = 0 ∧ t.fbOut = frameOf [(1, 2)])) = true := by decide

/-- V-BM-1. -/
theorem test_ldB : gives (runs 0xF333 { regs [(3, 254)] with i := 0x300 })
    (fun t => decide (t.readByte 0x300 = 2 ∧ t.readByte 0x301 = 5 ∧ t.readByte 0x302 = 4 ∧ t.i = 0x300)) = true := by
  decide

/-- V-BM-5. -/
theorem test_ldB_beyond : gives (runs 0xF333 { regs [(3, 1)] with i := 0xFFE })
    (fun t => halted t .memory 0x200 0xF333 (.addr 0x1000) && decide (t.readByte 0xFFE = 0)) = true := by decide

/-- V-BM-7. -/
theorem test_store : gives (runs 0xF255 { regs [(0, 1), (1, 2), (2, 3)] with i := 0x300 })
    (fun t => decide (t.readByte 0x300 = 1 ∧ t.readByte 0x301 = 2 ∧ t.readByte 0x302 = 3 ∧
      t.readByte 0x303 = 0 ∧ t.i = 0x303)) = true := by decide

/-- V-BM-10. -/
theorem test_store_beyond : gives (runs 0xFF55 { regs [(0, 1)] with i := 0xFF1 })
    (fun t => halted t .memory 0x200 0xFF55 (.addr 0x1000) && decide (t.i = 0xFF1 ∧ t.readByte 0xFF1 = 0)) = true := by
  decide

/-- V-BM-11. -/
theorem test_load : gives (runs 0xF265 (withBytes (regs [(3, 0x99)]) 0x300 [1, 2, 3]))
    (fun t => decide (t.readV 0 = 1 ∧ t.readV 1 = 2 ∧ t.readV 2 = 3 ∧ t.readV 3 = 0x99 ∧ t.i = 0x303)) = true := by
  decide

/-- V-BM-12. -/
theorem test_load_beyond : gives (runs 0xF065 { State.reset with i := 0x1000 })
    (fun t => halted t .memory 0x200 0xF065 (.addr 0x1000)) = true := by decide

/-- V-BM-15: the high nibble is ignored. -/
theorem test_ldF : gives (runs 0xF429 (regs [(4, 0x1A)])) (fun t => decide (t.i = 0x082)) = true := by decide

/-- V-BM-17. -/
theorem test_glyph_fifteen : State.reset.mem.readBytes 0x09B 5 = [0xF0, 0x80, 0xF0, 0x80, 0x80] := by decide

/-- V-FD-1: the last address an instruction fits at. -/
theorem test_last_fetch : gives (runs 0x1200 { State.reset with pc := 0xFFE })
    (fun t => decide (t.pc = 0x200)) = true := by decide

/-- V-FD-3: an odd program counter. -/
theorem test_odd_fetch : gives (runs 0x6007 { State.reset with pc := 0x201 })
    (fun t => decide (t.readV 0 = 7 ∧ t.pc = 0x203)) = true := by decide

/-- V-FD-5 and V-FD-6. -/
theorem test_halted_stays : timerTick { State.reset with dt := 5, run := .stopped } =
    { State.reset with dt := 5, run := .stopped } := by decide

/-- 70_reset_and_hazards.md R281: one byte over the limit. -/
theorem test_load_error : construct 0x200 (List.replicate 3585 0) = .fault (.loadError 3585) := by
  have h : (List.replicate 3585 (0 : Byte)).length = 3585 := List.length_replicate
  rw [construct, h, if_neg (by decide)]

/-! ### Witnesses: the hypotheses of each statement are met -/

/-- The state right after reset with events scheduled. -/
def waiting (es : List Event) : State := { State.reset with inputs := es }

/-- An instruction tick with no key pressed. -/
def quietTick : Event := .instrTick State.reset.keys 0

/-- A state whose next word to fetch is given. -/
def fetching (hi lo : Byte) (s : State) : State := { s with mem := s.mem.writeBytes s.pc.toNat [hi, lo] }

theorem live_reset : State.reset.live := ⟨rfl, rfl⟩

theorem reset_inv : State.reset.Inv := by
  refine ⟨rfl, by decide, by decide, ?_, ?_⟩ <;> (intro x h; cases h)

theorem witness_DecodeEncodeEveryInstruction : Instr.wf (.drw 0xF 0xF 15) = true ∧ Instr.wf (.shl 0) = true := by
  decide

theorem witness_EncodeDecodeEveryLegalWord :
    decode 0x8AB6 = .ok (.shr 0xA) ∧ encode (.shr 0xA) = 0x8A06 ∧
    decode 0xDFFF = .ok (.drw 0xF 0xF 15) := by decide

theorem witness_EventsComeFromTheEnvironment :
    (waiting [.stop]).inputs = [.stop] ∧ State.reset.inputs = [] := ⟨rfl, rfl⟩

theorem witness_StepRunsTheDecodedInstruction :
    let s := fetching 0x12 0x00 { waiting [quietTick] with pc := 0xFFE }
    s.live ∧ s.awaiting = none ∧ s.takeEvent = (quietTick, { s with inputs := [] }) ∧
    s.pc.toNat + 1 < Config.memSize ∧
    decode (s.readByte s.pc.toNat ++ s.readByte (s.pc.toNat + 1)) = .ok (.jp 0x200) :=
  ⟨⟨rfl, rfl⟩, rfl, rfl, by decide, by decide⟩

theorem witness_InstructionTickOrder_not_live : ¬ ({ State.reset with run := .stopped } : State).live :=
  fun h => nomatch h.2

theorem witness_InstructionTickOrder_awaiting :
    ({ State.reset with awaiting := some 0xF } : State).live ∧
    ({ State.reset with awaiting := some 0xF } : State).awaiting = some 0xF := ⟨⟨rfl, rfl⟩, rfl⟩

theorem witness_InstructionTickOrder_fetch :
    let s : State := { State.reset with pc := 0xFFF }
    s.live ∧ s.awaiting = none ∧ Config.memSize ≤ s.pc.toNat + 1 := ⟨⟨rfl, rfl⟩, rfl, by decide⟩

theorem witness_InstructionTickOrder_decode :
    let s := fetching 0xFF 0xFF { State.reset with pc := 0xFFE }
    s.live ∧ s.awaiting = none ∧ s.pc.toNat + 1 < Config.memSize ∧
    decode (s.readByte s.pc.toNat ++ s.readByte (s.pc.toNat + 1)) = .error .misc :=
  ⟨⟨rfl, rfl⟩, rfl, by decide, by decide⟩

theorem witness_InstructionTickOrder_execute :
    let s := fetching 0x00 0xE0 { State.reset with pc := 0xFFE }
    s.live ∧ s.awaiting = none ∧ s.pc.toNat + 1 < Config.memSize ∧
    decode (s.readByte s.pc.toNat ++ s.readByte (s.pc.toNat + 1)) = .ok .cls :=
  ⟨⟨rfl, rfl⟩, rfl, by decide, by decide⟩

theorem witness_StepKeepsInvariant :
    (waiting [.stop]).Inv ∧ step (waiting [.stop]) = .next (shutdown State.reset) :=
  ⟨by refine ⟨rfl, by decide, by decide, ?_, ?_⟩ <;> (intro x h; cases h), rfl⟩

theorem witness_FatalErrorsArePrecise :
    State.reset.live ∧ gives (instrTick State.reset.keys 0 State.reset) (fun t => decide (t.fault ≠ none)) = true :=
  ⟨live_reset, by decide⟩

theorem witness_HaltedOrStoppedForGood :
    ¬ (shutdown State.reset).live ∧ (shutdown State.reset).run = .stopped ∧
    ¬ (State.reset.raise .fetch none .none).live :=
  ⟨fun h => (nomatch h.2), rfl, fun h => (nomatch h.1)⟩

theorem witness_StopStopsBetweenTicks : (waiting [.stop, quietTick]).inputs = .stop :: [quietTick] := rfl

theorem witness_KeypadLatchedEachInstructionTick :
    State.reset.live ∧ gives (instrTick (keysOf [3]) 0 State.reset) (fun _ => true) = true ∧
    gives (react .timerTick State.reset) (fun _ => true) = true ∧
    gives (react .stop State.reset) (fun _ => true) = true := ⟨live_reset, by decide, by decide, by decide⟩

theorem witness_TimerTickCountsDownAndRefreshes :
    ({ State.reset with dt := 1, st := 0xFF } : State).live ∧ ¬ (shutdown State.reset).live :=
  ⟨⟨rfl, rfl⟩, fun h => nomatch h.2⟩

theorem witness_TimersReachZeroAndStay :
    (waiting [.timerTick, .timerTick, .stop]).live ∧
    (waiting [.timerTick, .timerTick, .stop]).inputs = List.replicate 2 .timerTick ++ [.stop] := ⟨⟨rfl, rfl⟩, rfl⟩

theorem witness_TimersRunDuringAWait :
    let s : State := { waiting [.timerTick] with awaiting := some 0, dt := 5 }
    s.live ∧ s.awaiting = some 0 ∧ s.inputs = [.timerTick] := ⟨⟨rfl, rfl⟩, rfl, rfl⟩

theorem witness_AudioFollowsSoundTimer : ({ State.reset with st := 1 } : State).live := ⟨rfl, rfl⟩

theorem witness_OutputLatchesAreUnread : exec (.ldST 0) State.reset = .next State.reset.advance := rfl

theorem witness_FlagRegisterWriters :
    gives (exec (.addReg 0 1) (regs [(0, 0xFF), (1, 1)]))
      (fun t => decide (t.readV 0xF ≠ (regs [(0, 0xFF), (1, 1)]).readV 0xF)) = true ∧
    gives (exec (.load 0xF) { State.reset with i := 0x041 })
      (fun t => decide (t.readV 0xF ≠ State.reset.readV 0xF)) = true := by decide

theorem witness_SpecialStateWriters :
    gives (exec (.call 0x300) State.reset) (fun t => decide (t.stack ≠ State.reset.stack ∧ t.sp ≠ State.reset.sp)) = true ∧
    gives (exec (.ldI 1) State.reset) (fun t => decide (t.i ≠ State.reset.i)) = true ∧
    gives (exec (.ldDT 0) (regs [(0, 1)])) (fun t => decide (t.dt ≠ (regs [(0, 1)]).dt)) = true ∧
    gives (exec (.ldST 0) (regs [(0, 1)])) (fun t => decide (t.st ≠ (regs [(0, 1)]).st)) = true ∧
    gives (exec (.drw 0 0 1) { State.reset with i := 0x050 }) (fun t => decide (t.fb ≠ State.reset.fb)) = true ∧
    gives (exec (.ldK 0) State.reset) (fun t => decide (t.awaiting ≠ State.reset.awaiting)) = true := by decide

theorem witness_MemoryWriters :
    gives (exec (.ldB 0) { regs [(0, 1)] with i := 0xFFD })
      (fun t => decide (t.readByte 0xFFF ≠ (regs [(0, 1)]).readByte 0xFFF)) = true ∧
    gives (exec (.store 0) { regs [(0, 1)] with i := 0xFFF })
      (fun t => decide (t.readByte 0xFFF ≠ (regs [(0, 1)]).readByte 0xFFF)) = true := by decide

/-- Both clauses at the top of memory, and no bytes at all beyond it. -/
theorem witness_MemReadIsChecked :
    (0xFFF + 1 - 1 < Config.memSize ∧ State.reset.memRead 0xFFF 1 = .ok [0]) ∧
    State.reset.memRead 0x1000 0 = .ok [] ∧
    (0 < 2 ∧ Config.memSize ≤ 0xFFF + 2 - 1 ∧ State.reset.memRead 0xFFF 2 = .error 0x1000) :=
  ⟨⟨by decide, by rfl⟩, by rfl, by decide, by decide, by rfl⟩

theorem witness_MemWriteIsChecked :
    0xFFF + ([1] : List Byte).length - 1 < Config.memSize ∧
    (0 < ([1, 2] : List Byte).length ∧ Config.memSize ≤ 0xFFF + ([1, 2] : List Byte).length - 1) := by decide

theorem witness_CanonicalMemoryIsUnique :
    Memory.wf (Memory.write [] 0x050 0) = true ∧ Memory.wf (Memory.write (Memory.write [] 0x051 7) 0x051 0x90) = true := by
  decide

theorem witness_StoredBytesAreFetched :
    let s : State := { State.reset with pc := 0xFFC, i := 0xFFE }
    0 < (1 : Reg).val ∧ s.i.toNat + (1 : Reg).val < Config.memSize ∧ s.i = s.pc + 2 := by decide

theorem witness_ConstructionPlacesTheImage :
    (List.replicate 3584 (1 : Byte)).length ≤ 4096 - 0x200 ∧ ([] : List Byte).length ≤ 4096 - 0x200 :=
  ⟨by rw [List.length_replicate], by decide⟩

theorem witness_LoadErrorBeforeAnyTick : 4096 - 0x200 < (List.replicate 3585 (1 : Byte)).length := by
  rw [List.length_replicate]; decide

theorem witness_GlyphTableIsPreloaded : construct 0x200 [] = .next State.reset := rfl

/-- The lowest and the highest entry, and the empty stack. -/
theorem witness_RetPopsTheStack :
    ({ State.reset with sp := 1 } : State).sp.val = (0 : Fin 16).val + 1 ∧
    ({ State.reset with sp := 16 } : State).sp.val = (15 : Fin 16).val + 1 ∧ State.reset.sp.val = 0 := by decide

/-- A return address with no room for a fetch. -/
theorem witness_RetPopsTheStack_fetch :
    let s : State := { State.reset with sp := 1, stack := State.reset.stack.set 0 0xFFF }
    s.live ∧ s.awaiting = none ∧ s.sp.val = (0 : Fin 16).val + 1 ∧
    Config.memSize ≤ s.stack[(0 : Fin 16).val].toNat + 1 := ⟨⟨rfl, rfl⟩, rfl, by decide, by decide⟩

theorem witness_JpJumps :
    State.reset.live ∧ State.reset.awaiting = none ∧ Config.memSize ≤ (0xFFF : Addr).toNat + 1 :=
  ⟨live_reset, rfl, by decide⟩

/-- An empty stack, room for one entry, and a full stack. -/
theorem witness_CallPushesTheReturnAddress :
    State.reset.sp.val = (0 : Fin 16).val ∧ ({ State.reset with sp := 15 } : State).sp.val = (15 : Fin 16).val ∧
    ({ State.reset with sp := 16 } : State).sp.val = 16 := by decide

theorem witness_RetUndoesCall : ({ State.reset with sp := 15 } : State).sp.val < 16 := by decide

theorem witness_CompareSkips :
    (0x1 : BitVec 4) ≠ 0 ∧ (regs [(3, 0x42)]).readV 3 = 0x42 ∧ (regs [(3, 0x42)]).readV 3 ≠ 0x43 ∧
    (regs [(3, 0x42)]).readV 3 ≠ (regs [(3, 0x42)]).readV 4 ∧
    (regs [(3, 0x42)]).readV 0xF = (regs [(3, 0x42)]).readV 4 := by decide

theorem witness_flag_register_as_destination : (0x0 : Reg) ≠ 0xF ∧ (0xE : Reg) ≠ 0xF := by decide

theorem witness_RandomIsTheTicksDraw :
    let s := fetching 0xC3 0x0F { waiting [.instrTick State.reset.keys 0xA7] with pc := 0xFFE }
    s.live ∧ s.awaiting = none ∧ s.inputs = [.instrTick State.reset.keys 0xA7] ∧
    s.pc.toNat + 1 < Config.memSize ∧
    s.readByte s.pc.toNat ++ s.readByte (s.pc.toNat + 1) = packXKK 0xC 3 0x0F :=
  ⟨⟨rfl, rfl⟩, rfl, rfl, by decide, by decide⟩

theorem witness_JumpOffsetAddsV0 :
    (regs [(0, 1)]).live ∧ (regs [(0, 1)]).awaiting = none ∧
    Config.memSize ≤ ((regs [(0, 1)]).readV 0).toNat + (0xFFE : Addr).toNat + 1 := ⟨⟨rfl, rfl⟩, rfl, by decide⟩

/-- No row at all beyond the memory, fifteen rows up to its last byte, and one byte too many. -/
theorem witness_DrawTogglesTheSprite :
    (0 < 16 ∧ (15 < 16 ∧ ({ State.reset with i := 0xFF1 } : State).i.toNat + 15 - 1 < Config.memSize)) ∧
    (0 < 15 ∧ Config.memSize ≤ ({ State.reset with i := 0xFF2 } : State).i.toNat + 15 - 1) := by decide

/-- A pixel under a sprite bit that is on, and a sprite that covers only pixels that are off. -/
theorem witness_DrawTogglesTheSprite_collision :
    let s := { withBytes State.reset 0x300 [0x80] with fb := frameOf [(0, 0)] }
    SpriteCovers s 0 0 1 (0, 0) ∧ s.fb.get (0, 0) = true ∧
    ∀ p, SpriteCovers State.reset 0 0 1 p → State.reset.fb.get p = false := by
  refine ⟨⟨0, 0, by decide, by decide, by decide, by decide, by decide⟩, by decide, ?_⟩
  rintro p ⟨r, c, hr, hc, hb, -⟩
  obtain rfl : r = 0 := by omega
  revert hb
  rw [show State.reset.readByte (State.reset.i.toNat + 0) = 0 by decide]
  simp

theorem witness_DrawIsSelfInverse :
    15 < 16 ∧ (0 : Reg) ≠ 0xF ∧ (1 : Reg) ≠ 0xF ∧
    ({ State.reset with i := 0xFF1 } : State).i.toNat + 15 - 1 < Config.memSize := by decide

/-- The lowest and the highest key, and the first value that is none. -/
theorem witness_KeySkips :
    ((regs [(5, 0)]).readV 5).toNat = (0 : Fin 16).val ∧ ((regs [(5, 15)]).readV 5).toNat = (15 : Fin 16).val ∧
    (keysOf [15])[15] = true ∧ (keysOf [15])[0] = false ∧ 15 < ((regs [(5, 16)]).readV 5).toNat := by decide

/-- A held key ends no wait; of two that go down the lower one does. -/
theorem witness_KeyWaitEndsOnAPress :
    let s : State := { State.reset with awaiting := some 3, keys := keysOf [0] }
    s.live ∧ s.awaiting = some 3 ∧
    (∀ k : Fin 16, (keysOf [0])[k.val] = true → s.keys[k.val] = true) ∧
    ((keysOf [0, 7, 15])[(7 : Fin 16).val] = true ∧ s.keys[(7 : Fin 16).val] = false ∧
      ∀ j : Fin 16, j < 7 → (keysOf [0, 7, 15])[j.val] = true → s.keys[j.val] = true) :=
  ⟨⟨rfl, rfl⟩, rfl, by decide, by decide, by decide, by decide⟩

theorem witness_TimerTransfers : (regs [(2, 2)]).live := ⟨rfl, rfl⟩

theorem witness_DecimalDigitsStored :
    ({ State.reset with i := 0xFFD } : State).i.toNat + 2 < Config.memSize ∧
    Config.memSize ≤ ({ State.reset with i := 0xFFE } : State).i.toNat + 2 := by decide

theorem witness_BlockStored :
    ({ State.reset with i := 0xFF0 } : State).i.toNat + (0xF : Reg).val < Config.memSize ∧
    Config.memSize ≤ ({ State.reset with i := 0xFF1 } : State).i.toNat + (0xF : Reg).val := by decide

theorem witness_BlockLoaded :
    ({ State.reset with i := 0xFFF } : State).i.toNat + (0 : Reg).val < Config.memSize ∧
    Config.memSize ≤ ({ State.reset with i := 0x1000 } : State).i.toNat + (0 : Reg).val := by decide

theorem witness_StoreThenLoadRestores :
    ({ State.reset with i := 0xFF0 } : State).i.toNat + (0xF : Reg).val < Config.memSize := by decide

end Sys2Proof.Tests
end

section
/-! SUPPORT. The word of a decoded instruction is the word that was fetched (30_encoding.md R83, R85;
log entry 4). -/

namespace Sys2Proof

theorem packNNN_of_fieldH {w : Word} {h : BitVec 4} (hh : fieldH w = h) : packNNN h (fieldNNN w) = w :=
  hh ▸ packNNN_fields w

theorem packXKK_of_fieldH {w : Word} {h : BitVec 4} (hh : fieldH w = h) :
    packXKK h (fieldX w) (fieldKK w) = w :=
  hh ▸ packXKK_fields w

theorem packXKK_of_fieldH_fieldKK {w : Word} {h : BitVec 4} {kk : Byte} (hh : fieldH w = h)
    (hk : fieldKK w = kk) : packXKK h (fieldX w) kk = w :=
  hk ▸ packXKK_of_fieldH hh

theorem packXYN_of_fieldH_fieldN {w : Word} {h n : BitVec 4} (hh : fieldH w = h) (hn : fieldN w = n) :
    packXYN h (fieldX w) (fieldY w) n = w :=
  hh ▸ hn ▸ packXYN_fields w

/-- Family `0xF` is the one left when the leading nibble is none of the others. -/
theorem eq_fifteen_of_ne (h : BitVec 4) (h0 : h ≠ 0x0) (h1 : h ≠ 0x1) (h2 : h ≠ 0x2) (h3 : h ≠ 0x3)
    (h4 : h ≠ 0x4) (h5 : h ≠ 0x5) (h6 : h ≠ 0x6) (h7 : h ≠ 0x7) (h8 : h ≠ 0x8) (h9 : h ≠ 0x9)
    (hA : h ≠ 0xA) (hB : h ≠ 0xB) (hC : h ≠ 0xC) (hD : h ≠ 0xD) (hE : h ≠ 0xE) : h = 0xF := by
  bv_omega

/-- The word an instruction was decoded from is its encoding, but for the ignored `y` of SHR and SHL
(R83, log entry 9). -/
theorem encode_of_decode {w : Word} {i : Instr} (h : decode w = .ok i) :
    encode i = w ∨ ∃ x, i = .shr x ∨ i = .shl x := by
  unfold decode at h
  split at h
  case h_1 =>
    split at h <;> cases h <;> exact .inl rfl
  case h_2 hH => cases h; exact .inl (packNNN_of_fieldH hH)
  case h_3 hH => cases h; exact .inl (packNNN_of_fieldH hH)
  case h_4 hH => cases h; exact .inl (packXKK_of_fieldH hH)
  case h_5 hH => cases h; exact .inl (packXKK_of_fieldH hH)
  case h_6 hH =>
    split at h <;> cases h
    next hN => exact .inl (packXYN_of_fieldH_fieldN hH hN)
  case h_7 hH => cases h; exact .inl (packXKK_of_fieldH hH)
  case h_8 hH => cases h; exact .inl (packXKK_of_fieldH hH)
  case h_9 hH =>
    split at h <;> cases h
    case h_7 => exact .inr ⟨_, .inl rfl⟩
    case h_9 => exact .inr ⟨_, .inr rfl⟩
    all_goals exact .inl (packXYN_of_fieldH_fieldN hH ‹_›)
  case h_10 hH =>
    split at h <;> cases h
    next hN => exact .inl (packXYN_of_fieldH_fieldN hH hN)
  case h_11 hH => cases h; exact .inl (packNNN_of_fieldH hH)
  case h_12 hH => cases h; exact .inl (packNNN_of_fieldH hH)
  case h_13 hH => cases h; exact .inl (packXKK_of_fieldH hH)
  case h_14 hH =>
    cases h
    refine .inl (packXYN_of_fieldH_fieldN hH ?_)
    simp
  case h_15 hH =>
    split at h <;> cases h <;> exact .inl (packXKK_of_fieldH_fieldKK hH ‹_›)
  case h_16 h0 h1 h2 h3 h4 h5 h6 h7 h8 h9 hA hB hC hD hE =>
    have hH := eq_fifteen_of_ne _ h0 h1 h2 h3 h4 h5 h6 h7 h8 h9 hA hB hC hD hE
    split at h <;> cases h <;> exact .inl (packXKK_of_fieldH_fieldKK hH ‹_›)

end Sys2Proof
end

section
/-! SUPPORT. What an instruction that completes leaves, by the kind of its effect; the claims about
writers, outputs and the invariant are read off these cases. -/

namespace Sys2Proof.Machine

/-- The instructions whose only effect beside `PC` is a write to the destination `V[x]` they name (R22). -/
inductive WritesReg (x : Reg) : Instr → Prop where
  | ldImm (kk : Byte) : WritesReg x (.ldImm x kk)
  | addImm (kk : Byte) : WritesReg x (.addImm x kk)
  | ldReg (y : Reg) : WritesReg x (.ldReg x y)
  | orReg (y : Reg) : WritesReg x (.orReg x y)
  | andReg (y : Reg) : WritesReg x (.andReg x y)
  | xorReg (y : Reg) : WritesReg x (.xorReg x y)
  | rnd (kk : Byte) : WritesReg x (.rnd x kk)
  | ldFromDT : WritesReg x (.ldFromDT x)

/-- The instructions that write a result to `V[x]` and then a flag to VF (R22). -/
inductive WritesRegAndFlag (x : Reg) : Instr → Prop where
  | addReg (y : Reg) : WritesRegAndFlag x (.addReg x y)
  | sub (y : Reg) : WritesRegAndFlag x (.sub x y)
  | subn (y : Reg) : WritesRegAndFlag x (.subn x y)
  | shr : WritesRegAndFlag x (.shr x)
  | shl : WritesRegAndFlag x (.shl x)

/-- The instructions whose only effect beside `PC` is a write to `I`. -/
inductive WritesIndex : Instr → Prop where
  | ldI (nnn : Addr) : WritesIndex (.ldI nnn)
  | addI (x : Reg) : WritesIndex (.addI x)
  | ldF (x : Reg) : WritesIndex (.ldF x)

/-- The instructions that only skip or do not skip the next one. -/
inductive Skips : Instr → Prop where
  | seImm (x : Reg) (kk : Byte) : Skips (.seImm x kk)
  | sneImm (x : Reg) (kk : Byte) : Skips (.sneImm x kk)
  | seReg (x y : Reg) : Skips (.seReg x y)
  | sneReg (x y : Reg) : Skips (.sneReg x y)
  | skp (x : Reg) : Skips (.skp x)
  | sknp (x : Reg) : Skips (.sknp x)

/-- The state an instruction that raises no error goes on to. Values that no invariant and no claim
about writers depends on are arbitrary. -/
inductive Completes (s : State) : Instr → State → Prop where
  | reg {i : Instr} {x : Reg} (h : WritesReg x i) (b : Byte) : Completes s i (s.writeV x b).advance
  | regFlag {i : Instr} {x : Reg} (h : WritesRegAndFlag x i) (b : Byte) (c : Bool) :
      Completes s i (s.writeResultFlag x b c).advance
  | index {i : Instr} (h : WritesIndex i) (a : Word) : Completes s i (s.writeI a).advance
  | skip {i : Instr} (h : Skips i) (c : Bool) : Completes s i (s.skipIf c)
  | jp (nnn : Addr) : Completes s (.jp nnn) (s.jump (addrOf nnn))
  | jpV0 (nnn : Addr) : Completes s (.jpV0 nnn) (s.jump (s.readV16 0 + addrOf nnn))
  | ret (h : 0 < s.sp.val) :
      Completes s .ret { s with sp := ⟨s.sp.val - 1, by omega⟩, pc := s.stack[s.sp.val - 1]'(by omega) }
  | call (nnn : Addr) (h : s.sp.val < 16) :
      Completes s (.call nnn) { s with
        stack := s.stack.set s.sp.val (s.pc + 2), sp := ⟨s.sp.val + 1, by omega⟩, pc := addrOf nnn }
  | cls : Completes s .cls { s with fb := Frame.clear }.advance
  | drw (x y : Reg) (n : Nat) (f : Frame) (c : Bool) :
      Completes s (.drw x y n) ({ s with fb := f }.writeFlag c).advance
  | ldK (x : Reg) : Completes s (.ldK x) { s with awaiting := some x }
  | ldDT (x : Reg) : Completes s (.ldDT x) { s with dt := s.readV x }.advance
  | ldST (x : Reg) : Completes s (.ldST x) { s with st := s.readV x }.advance
  | ldB (x : Reg) (h : s.i.toNat + 3 ≤ Config.memSize) :
      Completes s (.ldB x)
        { s with mem := s.mem.writeBytes s.i.toNat (decimalDigits (s.readV x)) }.advance
  | store (x : Reg) (h : s.i.toNat + x.val < Config.memSize) :
      Completes s (.store x) ({ s with
        mem := s.mem.writeBytes s.i.toNat (s.readVs 0 (x.val + 1)) }.writeI (s.indexPast x)).advance
  | load (x : Reg) (v : Vector Byte 16) (hv : ∀ k : Reg, x < k → v[k.val] = s.readV k) :
      Completes s (.load x) ({ s with v := v }.writeI (s.indexPast x)).advance

/-- LD Vx, [I] replaces the register file and leaves the registers above `V[x]` (R222). -/
theorem writeVs_leaves_above (s : State) (x : Reg) (bs : List Byte) (hlen : bs.length = x.val + 1) :
    ∃ v : Vector Byte 16, s.writeVs 0 bs = { s with v := v } ∧ ∀ k : Reg, x < k → v[k.val] = s.readV k := by
  obtain ⟨v, hv⟩ := s.writeVs_eq 0 bs
  refine ⟨v, hv, fun k hk => ?_⟩
  have h := State.readV_writeVs s 0 bs k
  have habove : ¬ (0 ≤ k.val ∧ k.val < 0 + bs.length) := by
    have : x.val < k.val := hk
    omega
  rw [if_neg habove, hv] at h
  exact h

/-- Every instruction raises the error its state calls for, or completes. -/
theorem exec_raises_or_completes (i : Instr) (s : State) :
    (∃ k e, Raises s i k e ∧ exec i s = raiseIn i k e s) ∨
    (∃ t, Completes s i t ∧ exec i s = .next t) := by
  cases i with
  | cls => exact .inr ⟨_, .cls, rfl⟩
  | ret =>
    rcases Nat.eq_zero_or_pos s.sp.val with h | h
    · exact .inl ⟨_, _, .ret h, exec_ret_error h⟩
    · exact .inr ⟨_, .ret h, exec_ret_ok h⟩
  | jp nnn => exact .inr ⟨_, .jp nnn, rfl⟩
  | call nnn =>
    by_cases h : s.sp.val < 16
    · exact .inr ⟨_, .call nnn h, exec_call_ok nnn h⟩
    · have h' : s.sp.val = 16 := by omega
      exact .inl ⟨_, _, .call nnn h', exec_call_error nnn h'⟩
  | seImm x kk => exact .inr ⟨_, .skip (.seImm x kk) _, rfl⟩
  | sneImm x kk => exact .inr ⟨_, .skip (.sneImm x kk) _, rfl⟩
  | seReg x y => exact .inr ⟨_, .skip (.seReg x y) _, rfl⟩
  | ldImm x kk => exact .inr ⟨_, .reg (.ldImm kk) _, rfl⟩
  | addImm x kk => exact .inr ⟨_, .reg (.addImm kk) _, rfl⟩
  | ldReg x y => exact .inr ⟨_, .reg (.ldReg y) _, rfl⟩
  | orReg x y => exact .inr ⟨_, .reg (.orReg y) _, rfl⟩
  | andReg x y => exact .inr ⟨_, .reg (.andReg y) _, rfl⟩
  | xorReg x y => exact .inr ⟨_, .reg (.xorReg y) _, rfl⟩
  | addReg x y => exact .inr ⟨_, .regFlag (.addReg y) _ _, rfl⟩
  | sub x y => exact .inr ⟨_, .regFlag (.sub y) _ _, rfl⟩
  | shr x => exact .inr ⟨_, .regFlag .shr _ _, rfl⟩
  | subn x y => exact .inr ⟨_, .regFlag (.subn y) _ _, rfl⟩
  | shl x => exact .inr ⟨_, .regFlag .shl _ _, rfl⟩
  | sneReg x y => exact .inr ⟨_, .skip (.sneReg x y) _, rfl⟩
  | ldI nnn => exact .inr ⟨_, .index (.ldI nnn) _, rfl⟩
  | jpV0 nnn => exact .inr ⟨_, .jpV0 nnn, rfl⟩
  | rnd x kk => exact .inr ⟨_, .reg (.rnd kk) _, rfl⟩
  | drw x y n =>
    by_cases h : n = 0 ∨ s.i.toNat + n ≤ Config.memSize
    · exact .inr ⟨_, .drw x y n _ _, exec_drw_ok x y n h⟩
    · exact .inl ⟨_, _, .drw x y n h, exec_drw_error x y n h⟩
  | skp x =>
    rcases Nat.lt_or_ge 15 (s.readV x).toNat with h | h
    · exact .inl ⟨_, _, .skp x h, exec_skp_error x h⟩
    · exact .inr ⟨_, .skip (.skp x) _, exec_skp_ok x (by omega)⟩
  | sknp x =>
    rcases Nat.lt_or_ge 15 (s.readV x).toNat with h | h
    · exact .inl ⟨_, _, .sknp x h, exec_sknp_error x h⟩
    · exact .inr ⟨_, .skip (.sknp x) _, exec_sknp_ok x (by omega)⟩
  | ldFromDT x => exact .inr ⟨_, .reg .ldFromDT _, rfl⟩
  | ldK x => exact .inr ⟨_, .ldK x, rfl⟩
  | ldDT x => exact .inr ⟨_, .ldDT x, rfl⟩
  | ldST x => exact .inr ⟨_, .ldST x, rfl⟩
  | addI x => exact .inr ⟨_, .index (.addI x) _, rfl⟩
  | ldF x => exact .inr ⟨_, .index (.ldF x) _, rfl⟩
  | ldB x =>
    rcases Nat.lt_or_ge Config.memSize (s.i.toNat + 3) with h | h
    · exact .inl ⟨_, _, .ldB x h, exec_ldB_error x h⟩
    · exact .inr ⟨_, .ldB x h, exec_ldB_ok x h⟩
  | store x =>
    rcases Nat.lt_or_ge (s.i.toNat + x.val) Config.memSize with h | h
    · exact .inr ⟨_, .store x h, exec_store_ok x h⟩
    · exact .inl ⟨_, _, .store x h, exec_store_error x h⟩
  | load x =>
    rcases Nat.lt_or_ge (s.i.toNat + x.val) Config.memSize with h | h
    · obtain ⟨v, hv, habove⟩ := writeVs_leaves_above s x (s.mem.readBytes s.i.toNat (x.val + 1)) (by simp)
      refine .inr ⟨_, .load x v habove, ?_⟩
      rw [exec_load_ok x h, hv]
    · exact .inl ⟨_, _, .load x h, exec_load_error x h⟩

/-- The same, read from the state an instruction answers. -/
theorem exec_inversion {i : Instr} {s t : State} (h : exec i s = .next t) :
    (∃ k e, Raises s i k e ∧ t = s.raise k (some (encode i)) e) ∨ Completes s i t := by
  rcases exec_raises_or_completes i s with ⟨k, e, hr, heq⟩ | ⟨u, hc, heq⟩
  · exact .inl ⟨k, e, hr, (Host.Outcome.next.inj (heq.symm.trans h)).symm⟩
  · exact .inr (Host.Outcome.next.inj (heq.symm.trans h) ▸ hc)

/-- An error an instruction's state calls for is the one it answers. -/
theorem Raises.exec_eq {s : State} {i : Instr} {k : ErrorKind} {e : ErrorInfo} (h : Raises s i k e) :
    exec i s = raiseIn i k e s := by
  cases h with
  | ret h => exact exec_ret_error h
  | call nnn h => exact exec_call_error nnn h
  | drw x y n h => exact exec_drw_error x y n h
  | skp x h => exact exec_skp_error x h
  | sknp x h => exact exec_sknp_error x h
  | ldB x h => exact exec_ldB_error x h
  | store x h => exact exec_store_error x h
  | load x h => exact exec_load_error x h

/-! ### Fetch and execute, case by case (30_encoding.md R90) -/

/-- A tick's fetch, decode and execution raises, or runs the instruction that was fetched. -/
theorem fetchExecute_cases (s : State) :
    (s.fetch = none ∧ fetchExecute s = .next (s.raise .fetch none .none)) ∨
    (∃ w e, s.fetch = some w ∧ decode w = .error e ∧
      fetchExecute s = .next (s.raise .decode (some w) .none)) ∨
    (∃ w i, s.fetch = some w ∧ decode w = .ok i ∧ fetchExecute s = exec i s) := by
  rcases hf : s.fetch with _ | w
  · exact .inl ⟨rfl, fetchExecute_none hf⟩
  · rcases hd : decode w with e | i
    · exact .inr (.inl ⟨w, e, rfl, hd, fetchExecute_illegal hf hd⟩)
    · exact .inr (.inr ⟨w, i, rfl, hd, fetchExecute_ok hf hd⟩)

end Sys2Proof.Machine
end

section
/-! SUPPORT. The invariant of the machine: what it depends on, and that each kind of step keeps it. -/

namespace Sys2Proof.Machine

/-! ### The parts the invariant speaks of -/

/-- The parts a fault record is checked against. -/
def State.evidence (s : State) : Vector Byte 16 × Word × Word × Fin 17 × Option Reg × Memory :=
  (s.v, s.i, s.pc, s.sp, s.awaiting, s.mem)

theorem FaultRecord.Tells.congr {r : FaultRecord} {s t : State} (hs : r.Tells s)
    (h : t.evidence = s.evidence) : r.Tells t := by
  cases s
  cases t
  simp only [State.evidence, Prod.mk.injEq] at h
  obtain ⟨rfl, rfl, rfl, rfl, rfl, rfl⟩ := h
  exact ⟨hs.pc, hs.word, hs.awaiting, hs.decode, hs.memory, hs.stackOverflow, hs.stackUnderflow, hs.keyIndex,
    hs.fetch⟩

/-- A step that leaves the evidence, the stack and `FAULT` keeps the invariant. -/
theorem State.Inv.congr {s t : State} (hs : s.Inv) (he : t.evidence = s.evidence)
    (hstack : t.stack = s.stack) (hfault : t.fault = s.fault) : t.Inv := by
  have hparts := he
  simp only [State.evidence, Prod.mk.injEq] at hparts
  obtain ⟨-, -, hpc, -, hawait, hmem⟩ := hparts
  refine ⟨hmem ▸ hs.mem, hpc ▸ hs.pc, hstack ▸ hs.stack, ?_, ?_⟩
  · rw [hawait, hpc]
    exact hs.awaiting
  · rw [hfault]
    exact fun r hr => (hs.fault r hr).congr he

/-- A fatal error with a truthful record keeps the invariant: nothing but `FAULT` changes (R241). -/
theorem State.Inv.raise {s : State} {k : ErrorKind} {w : Option Word} {e : ErrorInfo} (hs : s.Inv)
    (ht : FaultRecord.Tells { kind := k, pc := s.pc, word := w, info := e } s) : (s.raise k w e).Inv where
  mem := hs.mem
  pc := hs.pc
  stack := hs.stack
  awaiting := hs.awaiting
  fault := by
    rintro r ⟨⟩
    exact ht.congr rfl

/-! ### Truthful records (60_exceptions.md R240, R241) -/

theorem tells_fetch {s : State} (ha : s.awaiting = none) (hf : s.fetch = none) :
    FaultRecord.Tells { kind := .fetch, pc := s.pc, word := none, info := .none } s where
  pc := rfl
  word := hf.symm
  awaiting := ha
  decode := nofun
  memory := nofun
  stackOverflow := nofun
  stackUnderflow := nofun
  keyIndex := nofun
  fetch _ := by
    by_contra hlt
    rw [State.fetch_some (by omega)] at hf
    cases hf

theorem tells_decode {s : State} {w : Word} {e : Illegal} (ha : s.awaiting = none)
    (hf : s.fetch = some w) (hd : Sys2Proof.decode w = .error e) :
    FaultRecord.Tells { kind := .decode, pc := s.pc, word := some w, info := .none } s where
  pc := rfl
  word := hf.symm
  awaiting := ha
  decode _ := ⟨w, e, hf, hd⟩
  memory := nofun
  stackOverflow := nofun
  stackUnderflow := nofun
  keyIndex := nofun
  fetch := nofun

/-- The record of an error raised in execution names a cause that is there in the state. -/
theorem Raises.tells {s : State} {i : Instr} {k : ErrorKind} {e : ErrorInfo} (h : Raises s i k e)
    (ha : s.awaiting = none) (hf : s.fetch = some (encode i)) :
    FaultRecord.Tells { kind := k, pc := s.pc, word := some (encode i), info := e } s where
  pc := rfl
  word := hf.symm
  awaiting := ha
  decode := by cases h <;> nofun
  memory hk := by cases h <;> cases hk <;> rfl
  stackOverflow hk := by
    cases h <;> cases hk
    next h => exact Fin.ext h
  stackUnderflow hk := by
    cases h <;> cases hk
    next h => exact Fin.ext h
  keyIndex hk := by
    cases h <;> cases hk
    case skp x h => exact ⟨x, rfl, h⟩
    case sknp x h => exact ⟨x, rfl, h⟩
  fetch := by cases h <;> nofun

/-- The word a raising instruction was fetched from is its own encoding: none of them is a shift
(log entry 4). -/
theorem Raises.encode_eq {s : State} {i : Instr} {k : ErrorKind} {e : ErrorInfo} {w : Word}
    (h : Raises s i k e) (hd : decode w = .ok i) : encode i = w := by
  rcases encode_of_decode hd with heq | ⟨x, rfl | rfl⟩
  · exact heq
  · cases h
  · cases h

/-! ### Completed instructions (30_encoding.md R91 to R93) -/

/-- The address after a word that was fetched is at most the end of the memory (R93). -/
theorem toNat_add_two_le {pc : Word} (h : pc.toNat + 1 < Config.memSize) :
    (pc + 2).toNat ≤ Config.memSize := by
  simp only [Config.memSize] at h ⊢
  bv_omega

theorem toNat_add_four_le {pc : Word} (h : pc.toNat + 1 < Config.memSize) :
    (pc + 4).toNat ≤ 0x10FE := by
  simp only [Config.memSize] at h
  bv_omega

theorem toNat_addrOf_le (nnn : Addr) : (addrOf nnn).toNat ≤ 0xFFF := by
  simp only [addrOf, BitVec.toNat_setWidth]
  omega

theorem toNat_readV16_le (s : State) (x : Reg) : (s.readV16 x).toNat ≤ 0xFF := by
  simp only [State.readV16, BitVec.toNat_setWidth]
  omega

/-- An instruction that was fetched leaves `PC` where no addition wraps (R93): the furthest is
JP V0 to `0xFF + 0xFFF`. -/
theorem Completes.pc_le {s t : State} {i : Instr} (h : Completes s i t)
    (hpc : s.pc.toNat + 1 < Config.memSize)
    (hstack : ∀ k : Fin 16, s.stack[k.val].toNat ≤ Config.memSize) : t.pc.toNat ≤ 0x10FE := by
  have hnext : (s.pc + 2).toNat ≤ 0x10FE := (toNat_add_two_le hpc).trans (by decide)
  cases h with
  | skip _ c =>
    cases c
    · exact hnext
    · exact toNat_add_four_le hpc
  | jp nnn => exact (toNat_addrOf_le nnn).trans (by decide)
  | jpV0 nnn =>
    have h0 := toNat_readV16_le s 0
    have h1 := toNat_addrOf_le nnn
    rw [State.jump_pc, BitVec.toNat_add]
    omega
  | ret hsp => exact (hstack ⟨s.sp.val - 1, by omega⟩).trans (by decide)
  | call nnn _ => exact (toNat_addrOf_le nnn).trans (by decide)
  | ldK => exact (Nat.le_of_lt (Nat.lt_of_succ_lt hpc)).trans (by decide)
  | _ => exact hnext

/-- The memory stays canonical: LD B and LD [I] store only inside it (R60, R62). -/
theorem Completes.mem_wf {s t : State} {i : Instr} (h : Completes s i t) (hs : s.mem.wf = true) :
    t.mem.wf = true := by
  cases h with
  | ldB x hb => exact Memory.wf_writeBytes _ _ hs hb
  | store x hb => exact Memory.wf_writeBytes _ _ hs (by rw [State.length_readVs]; omega)
  | _ => exact hs

/-- CALL pushes the address after a word that was fetched, so no return address passes the end of
the memory (R131). -/
theorem Completes.stack_le {s t : State} {i : Instr} (h : Completes s i t)
    (hpc : s.pc.toNat + 1 < Config.memSize)
    (hs : ∀ k : Fin 16, s.stack[k.val].toNat ≤ Config.memSize) (k : Fin 16) :
    t.stack[k.val].toNat ≤ Config.memSize := by
  cases h with
  | call nnn hsp =>
    simp only [Vector.getElem_set]
    split
    · exact toNat_add_two_le hpc
    · exact hs k
  | _ => exact hs k

/-- Only LD Vx, K starts a wait, and it stays on its own word (R202). -/
theorem Completes.awaiting_fetchable {s t : State} {i : Instr} {x : Reg} (h : Completes s i t)
    (hpc : s.pc.toNat + 1 < Config.memSize) (hs : s.awaiting = none) (ht : t.awaiting = some x) :
    t.pc.toNat + 1 < Config.memSize := by
  cases h with
  | ldK => exact hpc
  | _ => cases hs.symm.trans ht

theorem Completes.fault_eq {s t : State} {i : Instr} (h : Completes s i t) : t.fault = s.fault := by
  cases h <;> rfl

theorem Completes.keeps_inv {s t : State} {i : Instr} (h : Completes s i t) (hs : s.Inv)
    (hlive : s.fault = none) (ha : s.awaiting = none) (hpc : s.pc.toNat + 1 < Config.memSize) : t.Inv where
  mem := h.mem_wf hs.mem
  pc := h.pc_le hpc hs.stack
  stack := h.stack_le hpc hs.stack
  awaiting _ hx := h.awaiting_fetchable hpc ha hx
  fault r hr := by
    rw [h.fault_eq, hlive] at hr
    cases hr

/-! ### The ticks -/

theorem State.fetchable_of_fetch {s : State} {w : Word} (h : s.fetch = some w) :
    s.pc.toNat + 1 < Config.memSize := by
  by_contra hlt
  rw [State.fetch_none (by omega)] at h
  cases h

theorem fetchExecute_keeps_inv {s t : State} (hs : s.Inv) (hlive : s.fault = none)
    (ha : s.awaiting = none) (h : fetchExecute s = .next t) : t.Inv := by
  rcases fetchExecute_cases s with ⟨hf, heq⟩ | ⟨w, e, hf, hd, heq⟩ | ⟨w, i, hf, hd, heq⟩
  · cases heq.symm.trans h
    exact hs.raise (tells_fetch ha hf)
  · cases heq.symm.trans h
    exact hs.raise (tells_decode ha hf hd)
  · rcases exec_inversion (heq.symm.trans h) with ⟨k, e, hr, rfl⟩ | hc
    · exact hs.raise (hr.tells ha (hr.encode_eq hd ▸ hf))
    · exact hc.keeps_inv hs hlive ha (State.fetchable_of_fetch hf)

/-- A resolved wait moves past the LD Vx, K it stood on (R203). -/
theorem State.Inv.awaitCheck {s : State} {x : Reg} (hs : s.Inv) (hlive : s.fault = none)
    (ha : s.awaiting = some x) : (s.awaitCheck x).Inv := by
  rcases hk : s.newKey with _ | k
  · rw [State.awaitCheck_none hk]
    exact hs
  · have hpc : (s.pc + 2).toNat ≤ 0x10FE := (toNat_add_two_le (hs.awaiting x ha)).trans (by decide)
    rw [State.awaitCheck_some hk]
    refine ⟨hs.mem, hpc, hs.stack, nofun, fun r hr => ?_⟩
    cases hlive.symm.trans hr

theorem instrTick_keeps_inv {s t : State} {ks : Keys} {r : Byte} (hs : s.Inv)
    (h : instrTick ks r s = .next t) : t.Inv := by
  by_cases hlive : s.live
  · have hlatch : (s.latch ks r).Inv := hs.congr rfl rfl rfl
    rcases ha : s.awaiting with _ | x
    · rw [instrTick_running ks r hlive ha] at h
      exact fetchExecute_keeps_inv hlatch hlive.1 ha h
    · rw [instrTick_awaiting ks r hlive ha] at h
      cases h
      exact hlatch.awaitCheck hlive.1 ha
  · rw [instrTick_frozen ks r hlive] at h
    cases h
    exact hs

theorem State.Inv.timerTick {s : State} (hs : s.Inv) : (timerTick s).Inv := by
  by_cases hlive : s.live
  · rw [timerTick_live hlive]
    exact hs.congr rfl rfl rfl
  · rw [timerTick_frozen hlive]
    exact hs

theorem react_keeps_inv {s t : State} (e : Event) (hs : s.Inv) (h : react e s = .next t) : t.Inv := by
  cases e with
  | instrTick ks r => exact instrTick_keeps_inv hs h
  | timerTick =>
    cases h
    exact hs.timerTick
  | stop =>
    cases h
    exact hs.congr rfl rfl rfl

theorem State.Inv.takeEvent {s : State} (hs : s.Inv) : s.takeEvent.2.Inv := by
  obtain ⟨es, n, h⟩ := s.takeEvent_eq
  rw [h]
  exact hs.congr rfl rfl rfl

/-- Settles O9, step by step: the event is taken, then the tick it names keeps the invariant. -/
theorem stepKeepsInvariant : Obligations.StepKeepsInvariant := by
  intro s t hs h
  rw [step_eq] at h
  exact react_keeps_inv _ hs.takeEvent h

/-- Settles O10: reset lists no memory cell, awaits no key and holds no fault record. -/
theorem resetMeetsInvariant : Obligations.ResetMeetsInvariant :=
  ⟨Memory.wf_reset, by decide, by decide, nofun, nofun⟩

end Sys2Proof.Machine
end

section
/-! SUPPORT. Which events latch the keypad, what a run of timer ticks leaves, and which instructions read
and write what (10_state.md R22 to R34). -/

namespace Sys2Proof.Machine

/-! ### The keypad latch (10_state.md R29) -/

/-- An instruction leaves the keypad latch alone, whether it raises or completes. -/
theorem exec_keys_eq {i : Instr} {s t : State} (h : exec i s = .next t) :
    t.keys = s.keys ∧ t.keysPrev = s.keysPrev := by
  rcases exec_inversion h with ⟨k, e, -, rfl⟩ | hc
  · exact ⟨rfl, rfl⟩
  · cases hc <;> exact ⟨rfl, rfl⟩

theorem fetchExecute_keys_eq {s t : State} (h : fetchExecute s = .next t) :
    t.keys = s.keys ∧ t.keysPrev = s.keysPrev := by
  rcases fetchExecute_cases s with ⟨-, heq⟩ | ⟨w, e, -, -, heq⟩ | ⟨w, i, -, -, heq⟩
  · cases heq.symm.trans h
    exact ⟨rfl, rfl⟩
  · cases heq.symm.trans h
    exact ⟨rfl, rfl⟩
  · exact exec_keys_eq (heq.symm.trans h)

theorem State.awaitCheck_keys_eq (s : State) (x : Reg) :
    (s.awaitCheck x).keys = s.keys ∧ (s.awaitCheck x).keysPrev = s.keysPrev := by
  rcases hk : s.newKey with _ | k
  · rw [State.awaitCheck_none hk]
    exact ⟨rfl, rfl⟩
  · rw [State.awaitCheck_some hk]
    exact ⟨rfl, rfl⟩

theorem instrTick_latches {s t : State} {ks : Keys} {r : Byte} (hlive : s.live)
    (h : instrTick ks r s = .next t) : t.keys = ks ∧ t.keysPrev = s.keys := by
  rcases ha : s.awaiting with _ | x
  · rw [instrTick_running ks r hlive ha] at h
    exact fetchExecute_keys_eq h
  · rw [instrTick_awaiting ks r hlive ha] at h
    cases h
    exact (s.latch ks r).awaitCheck_keys_eq x

theorem timerTick_keys_eq (s : State) :
    (timerTick s).keys = s.keys ∧ (timerTick s).keysPrev = s.keysPrev := by
  by_cases hlive : s.live
  · rw [timerTick_live hlive]
    exact ⟨rfl, rfl⟩
  · rw [timerTick_frozen hlive]
    exact ⟨rfl, rfl⟩

/-- Settles O14: the latch comes first in a live tick, and what runs after it leaves the keypad. -/
theorem keypadLatchedEachInstructionTick : Obligations.KeypadLatchedEachInstructionTick := by
  refine ⟨fun s t ks r hlive h => instrTick_latches hlive h, ?_⟩
  rintro s t e (rfl | rfl) h
  · cases h
    exact timerTick_keys_eq s
  · cases h
    exact ⟨rfl, rfl⟩

/-! ### Timer ticks in a row (60_exceptions.md R249, R253) -/

theorem toNat_iterate_countDown (n : Nat) (b : Byte) : (countDown^[n] b).toNat = b.toNat - n := by
  induction n generalizing b with
  | zero => rfl
  | succ n ih =>
    rw [Function.iterate_succ_apply, ih, toNat_countDown]
    omega

/-- What `n` timer ticks leave of a live state, with the events `es` still scheduled. -/
def State.afterTimerTicks (n : Nat) (es : List Event) (s : State) : State :=
  { s with
    inputs := es
    dt := countDown^[n] s.dt
    st := countDown^[n] s.st
    fbOut := if n = 0 then s.fbOut else s.fb }

/-- A timer tick and `n` more are `n + 1`: a later refresh shows the same frame buffer (R253). -/
theorem State.afterTimerTicks_timerTick (n : Nat) (es es' : List Event) {s : State} (hlive : s.live) :
    (timerTick { s with inputs := es' }).afterTimerTicks n es = s.afterTimerTicks (n + 1) es := by
  rw [timerTick_live (s := { s with inputs := es' }) hlive]
  simp [State.afterTimerTicks]

theorem timerTick_keeps_live {s : State} (hlive : s.live) : (timerTick s).live := by
  rw [timerTick_live hlive]
  exact hlive

theorem timerTick_inputs (s : State) : (timerTick s).inputs = s.inputs := by
  by_cases hlive : s.live
  · rw [timerTick_live hlive]
  · rw [timerTick_frozen hlive]

theorem run_timerTicks {n : Nat} {s : State} {es : List Event} (hlive : s.live)
    (hin : s.inputs = List.replicate n .timerTick ++ es) :
    Sys2Proof.core.run n s = .next (s.afterTimerTicks n es) := by
  induction n generalizing s with
  | zero =>
    obtain rfl : s.inputs = es := hin
    exact run_zero s
  | succ n ih =>
    rw [List.replicate_succ, List.cons_append] at hin
    rw [run_succ n (step_cons hin), ← State.afterTimerTicks_timerTick n es _ hlive]
    exact ih (timerTick_keeps_live (s := { s with inputs := _ }) hlive) (timerTick_inputs _)

theorem State.afterTimerTicks_same (n : Nat) (es : List Event) (s : State) (p : Part)
    (hp : p ∉ [Part.dt, .st, .inputs]) (hframe : ∀ q, p ≠ .framePixel q) :
    p.same s (s.afterTimerTicks n es) := by
  cases p with
  | dt | st | inputs => simp at hp
  | framePixel q => exact absurd rfl (hframe q)
  | _ => rfl

/-- Settles O16, by the state `n` timer ticks leave: both counters counted down `n` times, and the
frame shown once there is a tick. -/
theorem timersReachZeroAndStay : Obligations.TimersReachZeroAndStay := by
  intro n s es hlive hin
  refine ⟨s.afterTimerTicks n es, run_timerTicks hlive hin, rfl, toNat_iterate_countDown n s.dt,
    toNat_iterate_countDown n s.st, rfl, fun hn => if_neg (Nat.ne_of_gt hn), s.afterTimerTicks_same n es⟩

/-! ### Writers (10_state.md R22 to R34) -/

theorem WritesReg.flag_named {i : Instr} (h : WritesReg 0xF i) :
    (∃ kk, i = .ldImm 0xF kk ∨ i = .addImm 0xF kk ∨ i = .rnd 0xF kk) ∨
    (∃ y, i = .ldReg 0xF y ∨ i = .orReg 0xF y ∨ i = .andReg 0xF y ∨ i = .xorReg 0xF y) ∨
    i = .ldFromDT 0xF := by
  cases h with
  | ldImm kk | addImm kk | rnd kk => exact .inl ⟨kk, by simp⟩
  | ldReg y | orReg y | andReg y | xorReg y => exact .inr (.inl ⟨y, by simp⟩)
  | ldFromDT => exact .inr (.inr rfl)

theorem WritesRegAndFlag.flag_writer {i : Instr} {x : Reg} (h : WritesRegAndFlag x i) :
    ∃ y, i = .addReg x y ∨ i = .sub x y ∨ i = .subn x y ∨ i = .shr x ∨ i = .shl x := by
  cases h with
  | addReg y | sub y | subn y => exact ⟨y, by simp⟩
  | shr | shl => exact ⟨0, by simp⟩

/-- A write to one register that changes VF is a write to VF. -/
theorem eq_flagReg_of_writeV {s : State} {x : Reg} {b : Byte}
    (h : (s.writeV x b).readV flagReg ≠ s.readV flagReg) : x = flagReg := by
  by_contra hx
  rw [State.readV_writeV, if_neg (Ne.symm hx)] at h
  exact h rfl

/-- Settles O20, by the kinds of effect: only a register write, a flag write, DRW and the block load
reach the registers at all. -/
theorem flagRegisterWriters : Obligations.FlagRegisterWriters := by
  intro i s t h hne
  rcases exec_inversion h with ⟨k, e, -, rfl⟩ | hc
  · exact absurd rfl hne
  cases hc with
  | reg hw b =>
    obtain rfl := eq_flagReg_of_writeV hne
    rcases hw.flag_named with himm | hreg | hdt
    · exact .inr (.inl himm)
    · exact .inr (.inr (.inl hreg))
    · exact .inr (.inr (.inr (.inl hdt)))
  | regFlag hw b c =>
    obtain ⟨y, hw⟩ := hw.flag_writer
    exact .inl ⟨_, y, by tauto⟩
  | drw x y n f c => exact .inl ⟨x, y, by simp⟩
  | load x v hv =>
    have hx : x = 0xF := by
      by_contra hx
      exact hne (hv 0xF (lt_of_le_of_ne (Fin.le_last x) hx))
    exact .inr (.inr (.inr (.inr (hx ▸ rfl))))
  | _ => exact absurd rfl hne

theorem Completes.index_writer {s t : State} {i : Instr} (h : Completes s i t) (hne : t.i ≠ s.i) :
    ∃ x nnn, i = .ldI nnn ∨ i = .addI x ∨ i = .ldF x ∨ i = .store x ∨ i = .load x := by
  cases h with
  | index hw a =>
    cases hw with
    | ldI nnn => exact ⟨0, nnn, by simp⟩
    | addI x | ldF x => exact ⟨x, 0, by simp⟩
  | store x | load x => exact ⟨x, 0, by simp⟩
  | _ => exact absurd rfl hne

theorem Completes.stack_writer {s t : State} {i : Instr} (h : Completes s i t) (hne : t.stack ≠ s.stack) :
    ∃ nnn, i = .call nnn := by
  cases h with
  | call nnn => exact ⟨nnn, rfl⟩
  | _ => exact absurd rfl hne

theorem Completes.sp_writer {s t : State} {i : Instr} (h : Completes s i t) (hne : t.sp ≠ s.sp) :
    i = .ret ∨ ∃ nnn, i = .call nnn := by
  cases h with
  | ret => exact .inl rfl
  | call nnn => exact .inr ⟨nnn, rfl⟩
  | _ => exact absurd rfl hne

theorem Completes.dt_writer {s t : State} {i : Instr} (h : Completes s i t) (hne : t.dt ≠ s.dt) :
    ∃ x, i = .ldDT x := by
  cases h with
  | ldDT x => exact ⟨x, rfl⟩
  | _ => exact absurd rfl hne

theorem Completes.st_writer {s t : State} {i : Instr} (h : Completes s i t) (hne : t.st ≠ s.st) :
    ∃ x, i = .ldST x := by
  cases h with
  | ldST x => exact ⟨x, rfl⟩
  | _ => exact absurd rfl hne

theorem Completes.fb_writer {s t : State} {i : Instr} (h : Completes s i t) (hne : t.fb ≠ s.fb) :
    i = .cls ∨ ∃ x y n, i = .drw x y n := by
  cases h with
  | cls => exact .inl rfl
  | drw x y n => exact .inr ⟨x, y, n, rfl⟩
  | _ => exact absurd rfl hne

theorem Completes.awaiting_writer {s t : State} {i : Instr} (h : Completes s i t)
    (hne : t.awaiting ≠ s.awaiting) : ∃ x, i = .ldK x := by
  cases h with
  | ldK x => exact ⟨x, rfl⟩
  | _ => exact absurd rfl hne

theorem Completes.fbOut_eq {s t : State} {i : Instr} (h : Completes s i t) : t.fbOut = s.fbOut := by
  cases h <;> rfl

theorem Completes.run_eq {s t : State} {i : Instr} (h : Completes s i t) : t.run = s.run := by
  cases h <;> rfl

/-- Settles O21: a raised error writes `FAULT` alone, and a completed instruction's effect names its
parts. -/
theorem specialStateWriters : Obligations.SpecialStateWriters := by
  intro i s t h
  obtain ⟨hkeys, hprev⟩ := exec_keys_eq h
  rcases exec_inversion h with ⟨k, e, -, rfl⟩ | hc
  · exact ⟨absurd rfl, absurd rfl, absurd rfl, absurd rfl, absurd rfl, absurd rfl, absurd rfl, rfl, hkeys, hprev,
      rfl⟩
  · exact ⟨hc.index_writer, hc.stack_writer, hc.sp_writer, hc.dt_writer, hc.st_writer, hc.fb_writer,
      hc.awaiting_writer, hc.fbOut_eq, hkeys, hprev, hc.run_eq⟩

/-! ### Parts no instruction reads (10_state.md R27, R29, R34) -/

/-- The state with other contents of the display output, the previous keypad and the sound timer. -/
def State.withUnread (s : State) (f : Frame) (ks : Keys) (b : Byte) : State :=
  { s with fbOut := f, keysPrev := ks, st := b }

/-- An error depends on none of the three. -/
theorem Raises.withUnread {s : State} {i : Instr} {k : ErrorKind} {e : ErrorInfo} (h : Raises s i k e)
    (f : Frame) (ks : Keys) (b : Byte) : Raises (s.withUnread f ks b) i k e := by
  cases h with
  | ret h => exact .ret h
  | call nnn h => exact .call nnn h
  | drw x y n h => exact .drw x y n h
  | skp x h => exact .skp x h
  | sknp x h => exact .sknp x h
  | ldB x h => exact .ldB x h
  | store x h => exact .store x h
  | load x h => exact .load x h

theorem Raises.exec_withUnread {s t : State} {i : Instr} {k : ErrorKind} {e : ErrorInfo}
    (hr : Raises s i k e) (h : exec i s = .next t) (f : Frame) (ks : Keys) (b : Byte) :
    exec i (s.withUnread f ks b) = .next (t.withUnread f ks b) := by
  rw [hr.exec_eq] at h
  cases h
  exact (hr.withUnread f ks b).exec_eq

theorem State.writeVs_withUnread (s : State) (f : Frame) (ks : Keys) (b : Byte) (k : Nat) (bs : List Byte) :
    (s.withUnread f ks b).writeVs k bs = (s.writeVs k bs).withUnread f ks b := by
  induction bs generalizing s k with
  | nil => rfl
  | cons c bs ih =>
    rw [State.writeVs, State.writeVs, ← ih]
    split <;> rfl

theorem State.readVs_withUnread (s : State) (f : Frame) (ks : Keys) (b : Byte) (k n : Nat) :
    (s.withUnread f ks b).readVs k n = s.readVs k n := by
  induction n generalizing k with
  | zero => rfl
  | succ n ih =>
    rw [State.readVs, State.readVs, ih]
    rfl

/-- An instruction other than LD ST, Vx does the same to everything else whatever the three hold, and
leaves them. -/
theorem exec_withUnread {i : Instr} {s t : State} (h : exec i s = .next t) (hi : ∀ x, i ≠ .ldST x)
    (f : Frame) (ks : Keys) (b : Byte) :
    exec i (s.withUnread f ks b) = .next (t.withUnread f ks b) := by
  cases i with
  | ldST x => exact absurd rfl (hi x)
  | ret =>
    rcases Nat.eq_zero_or_pos s.sp.val with hsp | hsp
    · exact (Raises.ret hsp).exec_withUnread h f ks b
    · cases (exec_ret_ok hsp).symm.trans h
      exact exec_ret_ok (s := s.withUnread f ks b) hsp
  | call nnn =>
    rcases Nat.lt_or_ge s.sp.val 16 with hsp | hsp
    · cases (exec_call_ok nnn hsp).symm.trans h
      exact exec_call_ok (s := s.withUnread f ks b) nnn hsp
    · exact (Raises.call nnn (by omega)).exec_withUnread h f ks b
  | drw x y n =>
    by_cases hin : n = 0 ∨ s.i.toNat + n ≤ Config.memSize
    · cases (exec_drw_ok x y n hin).symm.trans h
      exact exec_drw_ok (s := s.withUnread f ks b) x y n hin
    · exact (Raises.drw x y n hin).exec_withUnread h f ks b
  | skp x =>
    rcases Nat.lt_or_ge 15 (s.readV x).toNat with hk | hk
    · exact (Raises.skp x hk).exec_withUnread h f ks b
    · have hk' : (s.readV x).toNat < 16 := by omega
      cases (exec_skp_ok x hk').symm.trans h
      exact exec_skp_ok (s := s.withUnread f ks b) x hk'
  | sknp x =>
    rcases Nat.lt_or_ge 15 (s.readV x).toNat with hk | hk
    · exact (Raises.sknp x hk).exec_withUnread h f ks b
    · have hk' : (s.readV x).toNat < 16 := by omega
      cases (exec_sknp_ok x hk').symm.trans h
      exact exec_sknp_ok (s := s.withUnread f ks b) x hk'
  | ldB x =>
    rcases Nat.lt_or_ge Config.memSize (s.i.toNat + 3) with hout | hin
    · exact (Raises.ldB x hout).exec_withUnread h f ks b
    · cases (exec_ldB_ok x hin).symm.trans h
      exact exec_ldB_ok (s := s.withUnread f ks b) x hin
  | store x =>
    rcases Nat.lt_or_ge (s.i.toNat + x.val) Config.memSize with hin | hout
    · cases (exec_store_ok x hin).symm.trans h
      rw [exec_store_ok (s := s.withUnread f ks b) x hin, State.readVs_withUnread]
      rfl
    · exact (Raises.store x hout).exec_withUnread h f ks b
  | load x =>
    rcases Nat.lt_or_ge (s.i.toNat + x.val) Config.memSize with hin | hout
    · cases (exec_load_ok x hin).symm.trans h
      rw [exec_load_ok (s := s.withUnread f ks b) x hin, State.writeVs_withUnread]
      rfl
    · exact (Raises.load x hout).exec_withUnread h f ks b
  | _ =>
    cases h
    rfl

/-- Settles O19: LD ST, Vx overwrites the sound timer; every other instruction commutes with new
contents of the three parts, and leaves the two that keep theirs. -/
theorem outputLatchesAreUnread : Obligations.OutputLatchesAreUnread := by
  intro i s t h
  by_cases hi : ∃ x, i = .ldST x
  · obtain ⟨x, rfl⟩ := hi
    cases h
    exact ⟨fun _ => rfl, fun _ => rfl, fun _ => .inr ⟨⟨x, rfl⟩, rfl⟩⟩
  · obtain ⟨-, -, -, -, hst, -, -, hout, -, hprev, -⟩ := specialStateWriters i s t h
    have hst : t.st = s.st := not_not.1 (mt hst hi)
    have hu := exec_withUnread h (fun x hx => hi ⟨x, hx⟩)
    refine ⟨fun f => ?_, fun ks => ?_, fun b => .inl ?_⟩
    · have hf : s.withUnread f t.keysPrev t.st = { s with fbOut := f } := by rw [hprev, hst]; rfl
      exact hf ▸ hu f t.keysPrev t.st
    · have hk : s.withUnread t.fbOut ks t.st = { s with keysPrev := ks } := by rw [hout, hst]; rfl
      exact hk ▸ hu t.fbOut ks t.st
    · have hb : s.withUnread t.fbOut t.keysPrev b = { s with st := b } := by rw [hout, hprev]; rfl
      exact hb ▸ hu t.fbOut t.keysPrev b

end Sys2Proof.Machine
end

section
/-! SUPPORT. Runs of bytes read and written: byte for byte, the frame, the first bad address, and the one
canonical form of each memory (20_memory.md). -/

namespace Sys2Proof.Machine

/-! ### Runs of bytes (20_memory.md R61, R62) -/

theorem Memory.getElem?_readBytes {n k : Nat} (m : Memory) (a : Nat) (hk : k < n) :
    (m.readBytes a n)[k]? = some (m.read (a + k)) := by
  have hlen : k < (m.readBytes a n).length := by rwa [Memory.length_readBytes]
  rw [List.getElem?_eq_getElem hlen, ← List.getD_eq_getElem _ 0 hlen, Memory.getD_readBytes m a n k hk]

theorem Memory.read_writeBytes_inside {bs : List Byte} {k : Nat} (m : Memory) (a : Nat)
    (hk : k < bs.length) : (m.writeBytes a bs).read (a + k) = bs[k] := by
  rw [Memory.read_writeBytes, if_pos (by omega), Nat.add_sub_cancel_left, List.getD_eq_getElem _ 0 hk]

/-- A byte that a run of writes changes is one of the run. -/
theorem Memory.mem_run_of_read_writeBytes_ne {m : Memory} {a b : Nat} {bs : List Byte}
    (h : (m.writeBytes a bs).read b ≠ m.read b) : a ≤ b ∧ b < a + bs.length := by
  by_contra hout
  exact h (by rw [Memory.read_writeBytes, if_neg hout])

/-- A register run stored reads back register by register (49_bcd_memory_glyph.md R221). -/
theorem State.read_writeBytes_readVs {n k : Nat} (s : State) (a : Nat) (hk : k < n) (hreg : k < 16) :
    (s.mem.writeBytes a (s.readVs 0 n)).read (a + k) = s.readV ⟨k, hreg⟩ := by
  have hlen : k < (s.readVs 0 n).length := by rwa [State.length_readVs]
  rw [Memory.read_writeBytes_inside _ _ hlen, ← List.getD_eq_getElem _ 0 hlen,
    State.getD_readVs s 0 n k hk (by omega)]
  simp only [Nat.zero_add]

theorem byte_mem_byteParts {a n b : Nat} : Part.byte b ∈ byteParts a n ↔ a ≤ b ∧ b < a + n := by
  simp only [byteParts, List.mem_map, List.mem_range, Part.byte.injEq]
  constructor
  · rintro ⟨k, hk, rfl⟩
    omega
  · rintro ⟨ha, hb⟩
    exact ⟨b - a, by omega, by omega⟩

/-- A run of writes changes no part but its own bytes. -/
theorem State.sameExcept_writeBytes (s : State) (a : Nat) (bs : List Byte) :
    SameExcept (byteParts a bs.length) s { s with mem := s.mem.writeBytes a bs } := by
  intro p hp
  cases p with
  | byte b =>
    by_contra hne
    exact hp (byte_mem_byteParts.2 (Memory.mem_run_of_read_writeBytes_ne hne))
  | _ => rfl

/-- The bad address a run that does not fit reports is in the run, and the first of it outside the
memory. -/
theorem Memory.firstBad_of_not_fits {a n : Nat} (h : ¬ (n = 0 ∨ a + n ≤ Config.memSize)) :
    a ≤ Memory.firstBad a ∧ Memory.firstBad a ≤ a + n - 1 ∧ Config.memSize ≤ Memory.firstBad a ∧
      ∀ b, a ≤ b → b < Memory.firstBad a → b < Config.memSize := by
  have hout : Memory.inBounds a n = false := by
    rwa [← Bool.not_eq_true, Memory.inBounds_iff]
  obtain ⟨hge, hlt, hbad, hleast⟩ := Memory.firstBad_least hout
  exact ⟨hge, by omega, hbad, hleast⟩

/-- Settles O23: the check passes exactly when the run fits, and then every byte is read in order. -/
theorem memReadIsChecked : Obligations.MemReadIsChecked := by
  refine fun s a n => ⟨fun hin => ?_, fun hn hout => ?_⟩
  · have hfits : n = 0 ∨ a + n ≤ Config.memSize := by omega
    exact ⟨_, State.memRead_ok hfits, Memory.length_readBytes s.mem a n,
      fun k hk => Memory.getElem?_readBytes s.mem a hk⟩
  · have hfits : ¬ (n = 0 ∨ a + n ≤ Config.memSize) := by omega
    exact ⟨_, State.memRead_error hfits, Memory.firstBad_of_not_fits hfits⟩

/-- Settles O24: the check is of the whole run, before any byte is written. -/
theorem memWriteIsChecked : Obligations.MemWriteIsChecked := by
  refine fun s a bs => ⟨fun hin => ?_, fun hlen hout => ?_⟩
  · have hfits : bs.length = 0 ∨ a + bs.length ≤ Config.memSize := by omega
    refine ⟨_, State.memWrite_ok hfits, fun k hk => ?_, s.sameExcept_writeBytes a bs⟩
    rw [List.getElem?_eq_getElem hk, ← Memory.read_writeBytes_inside s.mem a hk]
    rfl
  · have hfits : ¬ (bs.length = 0 ∨ a + bs.length ≤ Config.memSize) := by omega
    exact ⟨_, State.memWrite_error hfits, Memory.firstBad_of_not_fits hfits⟩

/-! ### Writers of memory (20_memory.md R65, R69) -/

theorem Completes.memory_writer {s t : State} {i : Instr} {a : Nat} (h : Completes s i t)
    (hne : t.readByte a ≠ s.readByte a) :
    ((∃ x, i = .ldB x) ∧ s.i.toNat ≤ a ∧ a ≤ s.i.toNat + 2) ∨
    (∃ x, i = .store x ∧ s.i.toNat ≤ a ∧ a ≤ s.i.toNat + x.val) := by
  cases h with
  | ldB x =>
    obtain ⟨hge, hlt⟩ := Memory.mem_run_of_read_writeBytes_ne hne
    exact .inl ⟨⟨x, rfl⟩, hge, Nat.le_of_lt_succ hlt⟩
  | store x =>
    obtain ⟨hge, hlt⟩ := Memory.mem_run_of_read_writeBytes_ne hne
    rw [State.length_readVs] at hlt
    exact .inr ⟨x, rfl, hge, Nat.le_of_lt_succ hlt⟩
  | _ => exact absurd rfl hne

theorem timerTick_mem (s : State) : (timerTick s).mem = s.mem := by
  by_cases hlive : s.live
  · rw [timerTick_live hlive]
  · rw [timerTick_frozen hlive]

/-- Settles O22: of the effects an instruction can have, two write memory, each one run of bytes
from `I` on. -/
theorem memoryWriters : Obligations.MemoryWriters := by
  refine ⟨fun i s t a h hne => ?_, fun s a => ⟨?_, rfl⟩⟩
  · rcases exec_inversion h with ⟨k, e, -, rfl⟩ | hc
    · exact absurd rfl hne
    · exact hc.memory_writer hne
  · rw [State.readByte, timerTick_mem, State.readByte]

/-! ### A store seen by the fetch (20_memory.md R63, R72) -/

/-- Settles O26: the next fetch reads the first two bytes of the stored run, which are `V[0]` and
`V[1]`. -/
theorem storedBytesAreFetched : Obligations.StoredBytesAreFetched := by
  intro s x hx hfits hi
  refine ⟨_, exec_store_ok x hfits, ?_⟩
  have hV0 := s.read_writeBytes_readVs s.i.toNat (n := x.val + 1) (k := 0) (by omega) (by omega)
  have hV1 := s.read_writeBytes_readVs s.i.toNat (n := x.val + 1) (k := 1) (by omega) (by omega)
  rw [State.fetch_some (by simp only [State.advance_pc, State.writeI_pc, ← hi]; omega)]
  simp only [State.advance_pc, State.writeI_pc, ← hi, State.readByte_advance, State.readByte_writeI]
  exact congrArg some (congrArg₂ (· ++ ·) hV0 hV1)

/-! ### One canonical form for each memory (20_memory.md R60; log entry 5) -/

theorem Memory.wfFrom_cons {lo : Nat} {c : Host.Cell} {m : Memory} :
    Memory.wfFrom lo (c :: m) = true ↔
      lo ≤ c.1 ∧ c.1 < Config.memSize ∧ c.2 ≠ Memory.initial c.1 ∧ m.wfFrom (c.1 + 1) = true := by
  simp only [Memory.wfFrom, Bool.and_eq_true, decide_eq_true_eq, and_assoc]

theorem Memory.read_cons_self (c : Host.Cell) (m : Memory) : Memory.read (c :: m) c.1 = c.2 := by
  rw [Memory.read, if_pos rfl]

theorem Memory.read_cons_of_ne {c : Host.Cell} {a : Nat} (m : Memory) (h : c.1 ≠ a) :
    Memory.read (c :: m) a = m.read a := by
  rw [Memory.read, if_neg h]

/-- Below its cells a memory reads as constructed. -/
theorem Memory.read_of_wfFrom {m : Memory} {lo a : Nat} (h : m.wfFrom lo = true) (ha : a < lo) :
    m.read a = Memory.initial a := by
  induction m generalizing lo with
  | nil => rfl
  | cons c m ih =>
    obtain ⟨hlo, -, -, hm⟩ := Memory.wfFrom_cons.1 h
    rw [Memory.read_cons_of_ne m (by omega), ih hm (by omega)]

/-- A canonical memory's first cell shows: a memory whose cells all lie above it reads another byte
there. -/
theorem Memory.read_head_ne {c : Host.Cell} {m m' : Memory} {lo : Nat}
    (h : Memory.wfFrom lo (c :: m) = true) (h' : m'.wfFrom (c.1 + 1) = true) :
    Memory.read (c :: m) c.1 ≠ m'.read c.1 := by
  obtain ⟨-, -, hne, -⟩ := Memory.wfFrom_cons.1 h
  rwa [Memory.read_cons_self, Memory.read_of_wfFrom h' (Nat.lt_succ_self c.1)]

/-- With the same first address, memories that read alike have alike tails. -/
theorem Memory.read_tail_eq {c d : Host.Cell} {m m' : Memory} (haddr : c.1 = d.1)
    (hm : m.wfFrom (c.1 + 1) = true) (hm' : m'.wfFrom (d.1 + 1) = true)
    (hread : ∀ a, Memory.read (c :: m) a = Memory.read (d :: m') a) (a : Nat) : m.read a = m'.read a := by
  rcases Nat.lt_or_ge c.1 a with hlt | hge
  · have h := hread a
    rwa [Memory.read_cons_of_ne m (by omega), Memory.read_cons_of_ne m' (by omega)] at h
  · rw [Memory.read_of_wfFrom hm (by omega), Memory.read_of_wfFrom hm' (by omega)]

theorem Memory.eq_of_read_eq {m m' : Memory} {lo lo' : Nat} (h : m.wfFrom lo = true)
    (h' : m'.wfFrom lo' = true) (hread : ∀ a, m.read a = m'.read a) : m = m' := by
  induction m generalizing m' lo lo' with
  | nil =>
    cases m' with
    | nil => rfl
    | cons d m' => exact absurd (hread d.1).symm (Memory.read_head_ne h' rfl)
  | cons c m ih =>
    cases m' with
    | nil => exact absurd (hread c.1) (Memory.read_head_ne h rfl)
    | cons d m' =>
      obtain ⟨-, hc⟩ := Memory.wfFrom_cons.1 h
      obtain ⟨-, hd⟩ := Memory.wfFrom_cons.1 h'
      rcases Nat.lt_trichotomy c.1 d.1 with hlt | haddr | hgt
      · exact absurd (hread c.1) (Memory.read_head_ne h (Memory.wfFrom_cons.2 ⟨hlt, hd⟩))
      · have hbyte := hread c.1
        rw [Memory.read_cons_self, haddr, Memory.read_cons_self] at hbyte
        obtain ⟨-, -, hm⟩ := hc
        obtain ⟨-, -, hm'⟩ := hd
        rw [Prod.ext haddr hbyte, ih hm hm' (Memory.read_tail_eq haddr hm hm' hread)]
      · exact absurd (hread d.1).symm (Memory.read_head_ne h' (Memory.wfFrom_cons.2 ⟨hgt, hc⟩))

/-- Settles O25: the first cells agree, since either would show in the other memory's reads; then the
tails do. -/
theorem canonicalMemoryIsUnique : Obligations.CanonicalMemoryIsUnique :=
  fun _ _ h h' hread => Memory.eq_of_read_eq h h' hread

end Sys2Proof.Machine
end

section
/-! SUPPORT. The decoder and the encoder against each other, and the words the decoder refuses
(30_encoding.md R80 to R87). -/

namespace Sys2Proof

/-! ### Decoding an encoding (R83 to R85) -/

/-- The encoder packs the leading nibble, the selector and every operand where the decoder reads them;
only DRW's count has to be in range for that. -/
theorem decode_encode {i : Instr} (h : i.wf = true) : decode (encode i) = .ok i := by
  cases i
  case cls => rfl
  case ret => rfl
  case drw x y n =>
    have hn : n < 16 := by simpa [Instr.wf] using h
    simp [encode, decode, Nat.mod_eq_of_lt hn]
  all_goals simp [encode, decode]

theorem decodeBytes_of_decode {hi lo : Byte} {i : Instr} (h : decode (wordOfBytes hi lo) = .ok i)
    (rest : List Byte) : decodeBytes (hi :: lo :: rest) = .ok (i, rest) := by
  simp only [decodeBytes, h]

/-- Settles O1: the word decodes back, and the two bytes put together are that word. -/
theorem decodeEncodeEveryInstruction : Obligations.DecodeEncodeEveryInstruction := by
  intro i hwf
  have hword := decode_encode hwf
  refine ⟨hword, fun rest => decodeBytes_of_decode ?_ rest⟩
  rw [wordOfBytes_high_low]
  exact hword

/-! ### Encoding a decoded word (R83, R85) -/

/-- Only DRW can be ill-formed, and its count is read from four bits. -/
theorem wf_of_decode {w : Word} {i : Instr} (h : decode w = .ok i) : i.wf = true := by
  cases i
  case drw x y n =>
    unfold decode at h
    split at h
    case h_14 =>
      cases h
      exact decide_eq_true (fieldN w).isLt
    case h_1 | h_6 | h_9 | h_10 | h_15 | h_16 => split at h <;> cases h
    all_goals cases h
  all_goals rfl

/-- A word that decodes to a shift is in family `0x8`, and the shift keeps its `x` and its selector. -/
theorem encode_shift_of_decode {w : Word} {i : Instr} {x : Reg} (hi : i = .shr x ∨ i = .shl x)
    (h : decode w = .ok i) : fieldH w = 0x8 ∧ encode i = packXYN 0x8 (fieldX w) 0 (fieldN w) := by
  unfold decode at h
  split at h
  case h_9 hH =>
    refine ⟨hH, ?_⟩
    split at h <;> cases h
    case h_7 hN => rw [hN]; rfl
    case h_9 hN => rw [hN]; rfl
    all_goals simp at hi
  case h_1 | h_6 | h_10 | h_15 | h_16 =>
    split at h <;> cases h <;> simp at hi
  all_goals
    cases h
    simp at hi

/-- The mask `0xFF0F` clears the `y` field. -/
theorem packXYN_clearY (h : BitVec 4) (x y : Reg) (n : BitVec 4) :
    packXYN h x y n &&& 0xFF0F = packXYN h x 0 n := by
  apply BitVec.eq_of_getLsbD_eq
  intro i hi
  simp only [packXYN, BitVec.getLsbD_and, BitVec.getLsbD_append, bitsOfReg]
  rcases i with _|_|_|_|_|_|_|_|_|_|_|_|_|_|_|_|i <;> simp_all
  omega

/-- Settles O2: `encode_of_decode`, and for the two shifts the word without the `y` they ignore. -/
theorem encodeDecodeEveryLegalWord : Obligations.EncodeDecodeEveryLegalWord := by
  intro w i h
  refine ⟨wf_of_decode h, ?_⟩
  rcases encode_of_decode h with heq | ⟨x, hi⟩
  · exact .inl heq
  · obtain ⟨hH, henc⟩ := encode_shift_of_decode hi h
    refine .inr ⟨⟨x, hi⟩, ?_⟩
    calc encode i = packXYN 0x8 (fieldX w) 0 (fieldN w) := henc
      _ = packXYN 0x8 (fieldX w) (fieldY w) (fieldN w) &&& 0xFF0F := (packXYN_clearY _ _ _ _).symm
      _ = w &&& 0xFF0F := by rw [packXYN_of_fieldH_fieldN hH rfl]

/-! ### Illegal words (R86) -/

/-- The words up to `0x0FFF` are those with leading nibble 0. -/
theorem toNat_le_iff_fieldH (w : Word) : w.toNat ≤ 0x0FFF ↔ fieldH w = 0x0 := by
  have hH : (fieldH w).toNat = w.toNat / 2 ^ 12 := by
    rw [fieldH, BitVec.extractLsb'_toNat, Nat.shiftRight_eq_div_pow]
    omega
  rw [← BitVec.toNat_inj, hH]
  simp
  omega

/-- The selectors of family `0x8` that R86 calls illegal are those no row of R85 lists. -/
theorem mem_unlisted_arithmetic_iff (n : BitVec 4) :
    n ∈ [0x8, 0x9, 0xA, 0xB, 0xC, 0xD, 0xF] ↔ n ∉ [0x0, 0x1, 0x2, 0x3, 0x4, 0x5, 0x6, 0x7, 0xE] := by
  revert n
  decide

/-- Settles O3, family by family: within one, the words no row lists are the ones refused. -/
theorem illegalWordsExactly : Obligations.IllegalWordsExactly := by
  intro w
  rw [toNat_le_iff_fieldH, mem_unlisted_arithmetic_iff]
  unfold decode
  split
  case h_16 h0 h1 h2 h3 h4 h5 h6 h7 h8 h9 hA hB hC hD hE =>
    have hH := eq_fifteen_of_ne _ h0 h1 h2 h3 h4 h5 h6 h7 h8 h9 hA hB hC hD hE
    split <;> simp_all
  case h_1 hH | h_6 hH | h_9 hH | h_10 hH | h_15 hH => split <;> simp_all
  all_goals simp [*]

/-- Settles O4: the words are literals, so the decoder runs on them. -/
theorem specWordsDecode : Obligations.SpecWordsDecode := by
  unfold Obligations.SpecWordsDecode
  decide

end Sys2Proof
end

section
/-! SUPPORT. That every step answers a next state, and the instruction tick in the order of
30_encoding.md R90. -/

namespace Sys2Proof.Machine

/-! ### Nothing stops the machine (30_encoding.md R87; 60_exceptions.md R242) -/

/-- An instruction completes, or its error is a next state (log entry 3). -/
theorem exec_next (i : Instr) (s : State) : ∃ t, exec i s = .next t := by
  rcases exec_raises_or_completes i s with ⟨k, e, -, heq⟩ | ⟨t, -, heq⟩
  · exact ⟨_, heq⟩
  · exact ⟨t, heq⟩

theorem fetchExecute_next (s : State) : ∃ t, fetchExecute s = .next t := by
  rcases fetchExecute_cases s with ⟨-, heq⟩ | ⟨w, e, -, -, heq⟩ | ⟨w, i, -, -, heq⟩
  · exact ⟨_, heq⟩
  · exact ⟨_, heq⟩
  · exact heq ▸ exec_next i s

theorem instrTick_next (ks : Keys) (r : Byte) (s : State) : ∃ t, instrTick ks r s = .next t := by
  by_cases hlive : s.live
  · rcases ha : s.awaiting with _ | x
    · exact instrTick_running ks r hlive ha ▸ fetchExecute_next _
    · exact ⟨_, instrTick_awaiting ks r hlive ha⟩
  · exact ⟨s, instrTick_frozen ks r hlive⟩

theorem react_next (e : Event) (s : State) : ∃ t, react e s = .next t := by
  cases e with
  | instrTick ks r => exact instrTick_next ks r s
  | timerTick => exact ⟨_, rfl⟩
  | stop => exact ⟨_, rfl⟩

/-- Settles O8: fatal errors are next states, and so is what every event leads to. -/
theorem stepAlwaysAnswersNext : Obligations.StepAlwaysAnswersNext :=
  ⟨exec_next, fun s => step_eq s ▸ react_next _ _⟩

/-! ### The instruction tick (30_encoding.md R90) -/

section Running
variable {s : State} (ks : Keys) (r : Byte) (hlive : s.live) (ha : s.awaiting = none)
include hlive ha

theorem instrTick_fetch_error (hpc : Config.memSize ≤ s.pc.toNat + 1) :
    HaltsWith (instrTick ks r s) (s.latch ks r) .fetch none .none := by
  rw [instrTick_running ks r hlive ha, fetchExecute_none (s := s.latch ks r) (State.fetch_none hpc)]
  exact raise_haltsWith _ _ _ _

theorem instrTick_decode_error {e : Illegal} (hpc : s.pc.toNat + 1 < Config.memSize)
    (hd : decode (s.readByte s.pc.toNat ++ s.readByte (s.pc.toNat + 1)) = .error e) :
    HaltsWith (instrTick ks r s) (s.latch ks r) .decode
      (some (s.readByte s.pc.toNat ++ s.readByte (s.pc.toNat + 1))) .none := by
  have hf : (s.latch ks r).fetch = some _ := State.fetch_some hpc
  rw [instrTick_running ks r hlive ha, fetchExecute_illegal hf hd]
  exact raise_haltsWith _ _ _ _

theorem instrTick_exec {i : Instr} (hpc : s.pc.toNat + 1 < Config.memSize)
    (hd : decode (s.readByte s.pc.toNat ++ s.readByte (s.pc.toNat + 1)) = .ok i) :
    instrTick ks r s = exec i (s.latch ks r) := by
  have hf : (s.latch ks r).fetch = some _ := State.fetch_some hpc
  rw [instrTick_running ks r hlive ha, fetchExecute_ok hf hd]

end Running

/-- Settles O6: taking the event leaves the core, its memory and `PC`, so the tick runs `i`. -/
theorem stepRunsTheDecodedInstruction : Obligations.StepRunsTheDecodedInstruction := by
  intro s s' ks r i hlive ha htake hpc hd
  obtain ⟨es, n, hs'⟩ := s.takeEvent_eq
  rw [htake] at hs'
  subst hs'
  rw [step_eq, htake]
  exact instrTick_exec (s := { s with inputs := es, freeTicks := n }) ks r hlive ha hpc hd

/-- Settles O7: the cases of the tick, one lemma each. -/
theorem instructionTickOrder : Obligations.InstructionTickOrder := by
  intro s ks r
  refine ⟨instrTick_frozen ks r, fun hlive => ⟨fun x => instrTick_awaiting ks r hlive, fun ha => ⟨?_, ?_⟩⟩⟩
  · exact instrTick_fetch_error ks r hlive ha
  · intro hpc
    exact ⟨fun e => instrTick_decode_error ks r hlive ha hpc, fun i => instrTick_exec ks r hlive ha hpc⟩

end Sys2Proof.Machine
end

section
/-! SUPPORT. The system family, and CALL against RET: what they change and what they leave
(40_system.md, 41_flow.md). -/

namespace Sys2Proof.Machine

/-! ### Clearing the frame buffer (40_system.md R120) -/

theorem exec_cls (s : State) : exec .cls s = .next { s with fb := Frame.clear }.advance := rfl

theorem State.cleared_same (s : State) (p : Part) (hpc : p ≠ .pc) (hpixel : ∀ q, p ≠ .pixel q) :
    p.same s { s with fb := Frame.clear }.advance := by
  cases p with
  | pc => exact absurd rfl hpc
  | pixel q => exact absurd rfl (hpixel q)
  | _ => rfl

/-- Settles O30: CLS writes the clear frame and `PC`; the frame lemma says that is all. -/
theorem clsClearsTheFrame : Obligations.ClsClearsTheFrame :=
  ⟨rfl, fun s => ⟨_, exec_cls s, Frame.get_clear, rfl, s.cleared_same⟩⟩

/-! ### Popping the return address (40_system.md R121) -/

theorem State.sameExcept_popped (s : State) (n : Fin 17) (a : Word) :
    SameExcept [.sp, .pc] s { s with sp := n, pc := a } := by
  intro p hp
  cases p with
  | sp | pc => simp at hp
  | _ => rfl

/-- RET with `k + 1` entries in use, by the entry it pops. -/
theorem exec_ret_of_sp_eq {s : State} {k : Fin 16} (h : s.sp.val = k.val + 1) :
    exec .ret s = .next { s with sp := k.castSucc, pc := s.stack[k.val] } := by
  have hk : s.sp.val - 1 = k.val := by omega
  rw [exec_ret_ok (by omega)]
  simp only [hk]
  rfl

/-- Settles O31: the pop leaves the core running, so with no room at the popped address the next tick is
the fetch error of any running core; an empty stack raises. -/
theorem retPopsTheStack : Obligations.RetPopsTheStack := by
  refine ⟨rfl, fun s => ⟨fun k hk => ?_, fun hempty => ?_⟩⟩
  · refine ⟨_, exec_ret_of_sp_eq hk, rfl, rfl, s.sameExcept_popped _ _, fun ks r hlive ha hpc => ?_⟩
    exact instrTick_fetch_error (s := { s with sp := k.castSucc, pc := s.stack[k.val] }) ks r hlive ha hpc
  · rw [exec_ret_error hempty]
    exact raiseIn_haltsWith .ret .stackUnderflow .none s

/-! ### A call and its return (40_system.md R121; 41_flow.md R131) -/

theorem State.sameExcept_pushed (s : State) (k : Fin 16) (n : Fin 17) (ret target : Word) :
    SameExcept [.stack k, .sp, .pc] s
      { s with stack := s.stack.set k.val ret, sp := n, pc := target } := by
  intro p hp
  cases p with
  | sp | pc => simp at hp
  | stack j =>
    have hne : k.val ≠ j.val := fun h => hp (by simp [Fin.ext h])
    exact Vector.getElem_set_ne k.isLt j.isLt hne
  | _ => rfl

/-- CALL with `k` entries in use, by the entry it pushes. -/
theorem exec_call_of_sp_eq {s : State} {k : Fin 16} (nnn : Addr) (h : s.sp.val = k.val) :
    exec (.call nnn) s = .next
      { s with stack := s.stack.set k.val (s.pc + 2), sp := k.succ, pc := addrOf nnn } := by
  rw [exec_call_ok nnn (by omega)]
  simp only [h]
  rfl

/-- Settles O34: RET pops the entry CALL pushed, so only the write to that entry and `PC` remain. -/
theorem retUndoesCall : Obligations.RetUndoesCall := by
  intro s nnn hroom
  obtain ⟨k, hk⟩ : ∃ k : Fin 16, s.sp.val = k.val := ⟨⟨s.sp.val, hroom⟩, rfl⟩
  have hsame : k.castSucc = s.sp := Fin.ext hk.symm
  refine ⟨_, _, exec_call_of_sp_eq nnn hk, exec_ret_of_sp_eq (k := k) rfl,
    Vector.getElem_set_self k.isLt, hsame, fun p hpc hentry => ?_⟩
  by_cases hsp : p = .sp
  · subst hsp
    exact hsame
  · refine s.sameExcept_pushed k k.castSucc (s.pc + 2) _ p ?_
    have hstack : p ≠ .stack k := fun h => hentry k h hk.symm
    simp [hstack, hsp, hpc]

end Sys2Proof.Machine
end

section
/-! SUPPORT. The flow family: the target of a jump or a call, and what either changes (41_flow.md). -/

namespace Sys2Proof.Machine

/-- A target is the 12-bit operand itself, so nothing is masked or aligned (R130). -/
theorem toNat_addrOf (nnn : Addr) : (addrOf nnn).toNat = nnn.toNat :=
  BitVec.toNat_setWidth_of_le (by decide)

/-! ### Jumping (41_flow.md R130) -/

theorem exec_jp (nnn : Addr) (s : State) : exec (.jp nnn) s = .next (s.jump (addrOf nnn)) := rfl

theorem State.sameExcept_jump (s : State) (a : Word) : SameExcept [.pc] s (s.jump a) := by
  intro p hp
  cases p with
  | pc => simp at hp
  | _ => rfl

/-- Settles O32: JP is the jump alone, which leaves the core running, so with no room at the target the
next tick is the fetch error of any running core. -/
theorem jpJumps : Obligations.JpJumps := by
  intro nnn
  refine ⟨decode_encode (i := .jp nnn) rfl, fun s => ⟨_, exec_jp nnn s, toNat_addrOf nnn,
    s.sameExcept_jump _, fun ks r hlive ha hroom => ?_⟩⟩
  rw [← toNat_addrOf] at hroom
  exact instrTick_fetch_error (s := s.jump (addrOf nnn)) ks r hlive ha hroom

/-! ### Calling (41_flow.md R131) -/

/-- Settles O33: with room CALL pushes into entry `k` and jumps; a full stack raises with its own word. -/
theorem callPushesTheReturnAddress : Obligations.CallPushesTheReturnAddress := by
  intro nnn
  refine ⟨decode_encode (i := .call nnn) rfl, fun s => ⟨fun k hk => ?_, fun hfull => ?_⟩⟩
  · exact ⟨_, exec_call_of_sp_eq nnn hk, Vector.getElem_set_self k.isLt, rfl, toNat_addrOf nnn,
      s.sameExcept_pushed k _ _ _⟩
  · rw [exec_call_error nnn hfull]
    exact raiseIn_haltsWith (.call nnn) .stackOverflow .none s

end Sys2Proof.Machine
end

section
/-! SUPPORT. The conditional skips: the counter a skip leaves, and the compare family (42_cond.md). -/

namespace Sys2Proof.Machine

/-! ### Skipping or falling through -/

theorem State.sameExcept_skipIf (s : State) (c : Bool) : SameExcept [.pc] s (s.skipIf c) :=
  s.sameExcept_jump _

/-- What an instruction that completes with a skip does, by a condition `P` for skipping and a
condition `Q` for not skipping. -/
theorem skips_of_exec_eq {i : Instr} {s : State} {c : Bool} {P Q : Prop}
    (hexec : exec i s = .next (s.skipIf c)) (hskip : P → c = true) (hfall : Q → c = false) :
    ∃ t, exec i s = .next t ∧ SameExcept [.pc] s t ∧ (P → t.pc = s.pc + 4) ∧ (Q → t.pc = s.pc + 2) := by
  refine ⟨s.skipIf c, hexec, s.sameExcept_skipIf c, fun hP => ?_, fun hQ => ?_⟩
  · rw [hskip hP]; rfl
  · rw [hfall hQ]; rfl

/-! ### The compare-skips (R140 to R143) -/

theorem exec_seImm (x : Reg) (kk : Byte) (s : State) :
    exec (.seImm x kk) s = .next (s.skipIf (s.readV x == kk)) := rfl

theorem exec_sneImm (x : Reg) (kk : Byte) (s : State) :
    exec (.sneImm x kk) s = .next (s.skipIf (s.readV x != kk)) := rfl

theorem exec_seReg (x y : Reg) (s : State) :
    exec (.seReg x y) s = .next (s.skipIf (s.readV x == s.readV y)) := rfl

theorem exec_sneReg (x y : Reg) (s : State) :
    exec (.sneReg x y) s = .next (s.skipIf (s.readV x != s.readV y)) := rfl

/-- The register compares take only `n = 0`; every other `n` is in the compare family of R86. -/
theorem decode_compare_error {h : BitVec 4} (hh : h = 0x5 ∨ h = 0x9) (x y : Reg) {n : BitVec 4}
    (hn : n ≠ 0) : ∃ e, decode (packXYN h x y n) = .error e := by
  refine (illegalWordsExactly _).2 (.inr (.inl ?_))
  rw [fieldH_packXYN, fieldN_packXYN]
  exact ⟨hh, hn⟩

/-- Settles O35: each word decodes as the encoding of its instruction, and each instruction is one skip
on its own comparison. -/
theorem compareSkips : Obligations.CompareSkips := by
  refine ⟨fun x kk => ⟨decode_encode (i := .seImm x kk) rfl, decode_encode (i := .sneImm x kk) rfl⟩,
    fun x y => ⟨decode_encode (i := .seReg x y) rfl, decode_encode (i := .sneReg x y) rfl, fun n hn =>
      ⟨decode_compare_error (.inl rfl) x y hn, decode_compare_error (.inr rfl) x y hn⟩⟩,
    fun s => ⟨fun x kk => ⟨?_, ?_⟩, fun x y => ⟨?_, ?_⟩⟩⟩
  · exact skips_of_exec_eq (exec_seImm x kk s) beq_iff_eq.2 beq_false_of_ne
  · exact skips_of_exec_eq (exec_sneImm x kk s) bne_iff_ne.2 bne_eq_false_iff_eq.2
  · exact skips_of_exec_eq (exec_seReg x y s) beq_iff_eq.2 beq_false_of_ne
  · exact skips_of_exec_eq (exec_sneReg x y s) bne_iff_ne.2 bne_eq_false_iff_eq.2

end Sys2Proof.Machine
end

section
/-! SUPPORT. The register loads: what writing one register and moving on leaves unchanged (43_load.md). -/

namespace Sys2Proof.Machine

/-! ### Frames of a register write -/

theorem Part.same_trans {p : Part} {s t u : State} (hst : p.same s t) (htu : p.same t u) : p.same s u := by
  cases p <;> exact Eq.trans htu hst

/-- Frames compose: two changes in a row leave alone what neither may change. -/
theorem SameExcept.append {ps qs : List Part} {s t u : State} (hst : SameExcept ps s t)
    (htu : SameExcept qs t u) : SameExcept (ps ++ qs) s u :=
  fun p hp => Part.same_trans (hst p fun h => hp (List.mem_append_left qs h))
    (htu p fun h => hp (List.mem_append_right ps h))

theorem State.sameExcept_writeV (s : State) (x : Reg) (b : Byte) : SameExcept [.v x] s (s.writeV x b) := by
  intro p hp
  cases p with
  | v y =>
    have hne : y ≠ x := fun h => hp (by simp [h])
    exact (s.readV_writeV x y b).trans (if_neg hne)
  | _ => rfl

theorem State.sameExcept_advance (s : State) : SameExcept [.pc] s s.advance :=
  s.sameExcept_jump _

/-- What an instruction that completes with one register write does. -/
theorem writes_of_exec_eq {i : Instr} {s : State} {x : Reg} {b : Byte}
    (hexec : exec i s = .next (s.writeV x b).advance) :
    ∃ t, exec i s = .next t ∧ t.readV x = b ∧ t.pc = s.pc + 2 ∧ SameExcept [.v x, .pc] s t :=
  ⟨_, hexec, (s.readV_writeV x x b).trans (if_pos rfl), rfl,
    (s.sameExcept_writeV x b).append (s.writeV x b).sameExcept_advance⟩

/-! ### The two loads (R150, R151) -/

theorem exec_ldImm (x : Reg) (kk : Byte) (s : State) :
    exec (.ldImm x kk) s = .next (s.writeV x kk).advance := rfl

theorem exec_ldReg (x y : Reg) (s : State) :
    exec (.ldReg x y) s = .next (s.writeV x (s.readV y)).advance := rfl

/-- Settles O36: each word decodes as the encoding of its instruction, and each load is one write of
`V[x]`, with no register set apart. -/
theorem registerLoads : Obligations.RegisterLoads :=
  ⟨fun x kk => ⟨decode_encode (i := .ldImm x kk) rfl, fun s => writes_of_exec_eq (exec_ldImm x kk s)⟩,
    fun x y => ⟨decode_encode (i := .ldReg x y) rfl, fun s => writes_of_exec_eq (exec_ldReg x y s)⟩⟩

end Sys2Proof.Machine
end

section
/-! SUPPORT. The arithmetic family: writing a result and then its flag, and the sums, differences and
flags as numbers (44_arith.md). -/

namespace Sys2Proof.Machine

/-! ### A result, then its flag (92_eei_decisions.md D6) -/

theorem State.sameExcept_writeResultFlag (s : State) (x : Reg) (b : Byte) (c : Bool) :
    SameExcept [.v x, .v flagReg] s (s.writeResultFlag x b c) :=
  (s.sameExcept_writeV x b).append ((s.writeV x b).sameExcept_writeV flagReg (flagByte c))

/-- What an instruction that completes with a result and a flag does. The flag is written last, so VF
holds it for every `x`, and the result stays in `V[x]` for every other register. -/
theorem writesFlagged_of_exec_eq {i : Instr} {s : State} {x : Reg} {b : Byte} {c : Bool}
    (hexec : exec i s = .next (s.writeResultFlag x b c).advance) :
    ∃ t, exec i s = .next t ∧ (x ≠ 0xF → t.readV x = b) ∧ t.readV 0xF = flagByte c ∧
      t.pc = s.pc + 2 ∧ SameExcept [.v x, .v 0xF, .pc] s t := by
  refine ⟨_, hexec, fun hx => ?_, ?_, rfl,
    (s.sameExcept_writeResultFlag x b c).append (State.sameExcept_advance _)⟩
  · rw [State.readV_advance, State.readV_writeResultFlag, if_neg hx, if_pos rfl]
  · rw [State.readV_advance, State.readV_writeResultFlag, if_pos rfl]

/-! ### Differences and flags as numbers -/

/-- A flag over a decided condition, as the number VF holds (R22). -/
theorem toNat_flagByte_decide (P : Prop) [Decidable P] :
    (flagByte (decide P)).toNat = if P then 1 else 0 := by
  by_cases h : P <;> simp [flagByte, h]

theorem toNat_flagByte_carry (a b : Byte) :
    (flagByte (carry a b)).toNat = if a.toNat + b.toNat > 255 then 1 else 0 :=
  toNat_flagByte_decide _

theorem toNat_flagByte_notBorrow (a b : Byte) :
    (flagByte (notBorrow a b)).toNat = if a.toNat ≥ b.toNat then 1 else 0 :=
  toNat_flagByte_decide _

/-- A byte difference is the integer difference modulo 256, also where it is negative. -/
theorem toNat_sub_emod (a b : Byte) : ((a - b).toNat : Int) = (a.toNat - b.toNat : Int) % 256 := by
  rw [BitVec.toNat_sub]
  omega

/-! ### The two additions (R160, R161) -/

theorem exec_addImm (x : Reg) (kk : Byte) (s : State) :
    exec (.addImm x kk) s = .next (s.writeV x (s.readV x + kk)).advance := rfl

theorem exec_addReg (x y : Reg) (s : State) :
    exec (.addReg x y) s =
      .next (s.writeResultFlag x (s.readV x + s.readV y) (carry (s.readV x) (s.readV y))).advance := rfl

/-- Settles O37: the one write is of `V[x]`, so VF changes only as that destination. -/
theorem addImmediateWraps : Obligations.AddImmediateWraps := by
  refine fun x kk => ⟨decode_encode (i := .addImm x kk) rfl, fun s => ?_⟩
  obtain ⟨t, hexec, hx, hpc, hsame⟩ := writes_of_exec_eq (exec_addImm x kk s)
  exact ⟨t, hexec, hx ▸ BitVec.toNat_add _ _, hpc, hsame⟩

/-- Settles O38: the sum, then the carry of the operands as they were before either write. -/
theorem addRegisterCarries : Obligations.AddRegisterCarries := by
  refine fun x y => ⟨decode_encode (i := .addReg x y) rfl, fun s => ?_⟩
  obtain ⟨t, hexec, hx, hflag, hpc, hsame⟩ := writesFlagged_of_exec_eq (exec_addReg x y s)
  exact ⟨t, hexec, fun hne => hx hne ▸ BitVec.toNat_add _ _, hflag ▸ toNat_flagByte_carry _ _, hpc, hsame⟩

/-! ### The two subtractions (R162, R163) -/

theorem exec_sub (x y : Reg) (s : State) :
    exec (.sub x y) s =
      .next (s.writeResultFlag x (s.readV x - s.readV y) (notBorrow (s.readV x) (s.readV y))).advance := rfl

theorem exec_subn (x y : Reg) (s : State) :
    exec (.subn x y) s =
      .next (s.writeResultFlag x (s.readV y - s.readV x) (notBorrow (s.readV y) (s.readV x))).advance := rfl

/-- What a subtraction into `V[x]` does, whichever operand is the minuend `a`. -/
theorem subtracts_of_exec_eq {i : Instr} {s : State} {x : Reg} {a b : Byte}
    (hexec : exec i s = .next (s.writeResultFlag x (a - b) (notBorrow a b)).advance) :
    ∃ t, exec i s = .next t ∧
      (x ≠ 0xF → ((t.readV x).toNat : Int) = (a.toNat - b.toNat : Int) % 256) ∧
      (t.readV 0xF).toNat = (if a.toNat ≥ b.toNat then 1 else 0) ∧
      t.pc = s.pc + 2 ∧ SameExcept [.v x, .v 0xF, .pc] s t := by
  obtain ⟨t, hexec, hx, hflag, hpc, hsame⟩ := writesFlagged_of_exec_eq hexec
  exact ⟨t, hexec, fun hne => hx hne ▸ toNat_sub_emod a b, hflag ▸ toNat_flagByte_notBorrow a b, hpc, hsame⟩

/-- Settles O39: the minuend is `V[x]`. -/
theorem subtractReportsNotBorrow : Obligations.SubtractReportsNotBorrow :=
  fun x y => ⟨decode_encode (i := .sub x y) rfl, fun s => subtracts_of_exec_eq (exec_sub x y s)⟩

/-- Settles O40: the minuend is `V[y]`, and the result still goes to `V[x]`. -/
theorem reverseSubtractReportsNotBorrow : Obligations.ReverseSubtractReportsNotBorrow :=
  fun x y => ⟨decode_encode (i := .subn x y) rfl, fun s => subtracts_of_exec_eq (exec_subn x y s)⟩

end Sys2Proof.Machine
end

section
/-! SUPPORT. The bitwise and shift family: the bits of a bytewise result, a shift and the bit it drops as
numbers, and the `y` field the shifts ignore (45_bitwise_shift.md). -/

namespace Sys2Proof.Machine

/-! ### OR, AND and XOR (R170 to R172) -/

theorem exec_orReg (x y : Reg) (s : State) :
    exec (.orReg x y) s = .next (s.writeV x (s.readV x ||| s.readV y)).advance := rfl

theorem exec_andReg (x y : Reg) (s : State) :
    exec (.andReg x y) s = .next (s.writeV x (s.readV x &&& s.readV y)).advance := rfl

theorem exec_xorReg (x y : Reg) (s : State) :
    exec (.xorReg x y) s = .next (s.writeV x (s.readV x ^^^ s.readV y)).advance := rfl

/-- What an instruction that completes with one register write does, by the bits of the byte written. -/
theorem writesBits_of_exec_eq {i : Instr} {s : State} {x : Reg} {b : Byte} {bit : Nat → Bool}
    (hexec : exec i s = .next (s.writeV x b).advance) (hbit : ∀ k, b.getLsbD k = bit k) :
    ∃ t, exec i s = .next t ∧ t.pc = s.pc + 2 ∧ SameExcept [.v x, .pc] s t ∧
      ∀ k, (t.readV x).getLsbD k = bit k := by
  obtain ⟨t, hexec, hx, hpc, hsame⟩ := writes_of_exec_eq hexec
  exact ⟨t, hexec, hpc, hsame, fun k => hx ▸ hbit k⟩

/-- Settles O41: each of the three is one write of `V[x]`, so VF changes only as that destination. -/
theorem bitwiseLeavesTheFlag : Obligations.BitwiseLeavesTheFlag := by
  refine fun x y => ⟨decode_encode (i := .orReg x y) rfl, decode_encode (i := .andReg x y) rfl,
    decode_encode (i := .xorReg x y) rfl, fun s => ⟨?_, ?_, ?_⟩⟩
  · exact writesBits_of_exec_eq (exec_orReg x y s) fun _ => BitVec.getLsbD_or
  · exact writesBits_of_exec_eq (exec_andReg x y s) fun _ => BitVec.getLsbD_and
  · exact writesBits_of_exec_eq (exec_xorReg x y s) fun _ => BitVec.getLsbD_xor

/-! ### A shift and the bit it drops, as numbers -/

theorem toNat_ushiftRight_one (a : Byte) : (a >>> 1).toNat = a.toNat / 2 := by
  rw [BitVec.toNat_ushiftRight, Nat.shiftRight_eq_div_pow, pow_one]

theorem toNat_shiftLeft_one (a : Byte) : (a <<< 1).toNat = a.toNat * 2 % 256 := by
  rw [BitVec.toNat_shiftLeft, Nat.shiftLeft_eq, pow_one]

theorem toNat_flagByte (c : Bool) : (flagByte c).toNat = c.toNat := by
  cases c <;> rfl

theorem toNat_flagByte_getLsbD (a : Byte) (k : Nat) : (flagByte (a.getLsbD k)).toNat = a.toNat / 2 ^ k % 2 := by
  rw [toNat_flagByte, BitVec.getLsbD, Nat.toNat_testBit]

theorem toNat_flagByte_outRight (a : Byte) : (flagByte (outRight a)).toNat = a.toNat % 2 := by
  rw [outRight, toNat_flagByte_getLsbD, pow_zero, Nat.div_one]

/-- A byte is below 256, so bit 7 is the whole quotient by 128. -/
theorem toNat_flagByte_outLeft (a : Byte) : (flagByte (outLeft a)).toNat = a.toNat / 128 := by
  have hlt : a.toNat / 128 < 2 := Nat.div_lt_of_lt_mul a.isLt
  rw [outLeft, toNat_flagByte_getLsbD]
  exact Nat.mod_eq_of_lt hlt

/-! ### The two shifts (R173, R174) -/

theorem decode_shr_packXYN (x y : Reg) : decode (packXYN 0x8 x y 0x6) = .ok (.shr x) := by
  simp [decode]

theorem decode_shl_packXYN (x y : Reg) : decode (packXYN 0x8 x y 0xE) = .ok (.shl x) := by
  simp [decode]

theorem exec_shr (x : Reg) (s : State) :
    exec (.shr x) s = .next (s.writeResultFlag x (s.readV x >>> 1) (outRight (s.readV x))).advance := rfl

theorem exec_shl (x : Reg) (s : State) :
    exec (.shl x) s = .next (s.writeResultFlag x (s.readV x <<< 1) (outLeft (s.readV x))).advance := rfl

/-- Settles O42: half of `V[x]`, then bit 0 of the operand as it was before either write. -/
theorem shiftRightDropsBitZero : Obligations.ShiftRightDropsBitZero := by
  refine fun x => ⟨decode_shr_packXYN x, fun s => ?_⟩
  obtain ⟨t, hexec, hx, hflag, hpc, hsame⟩ := writesFlagged_of_exec_eq (exec_shr x s)
  exact ⟨t, hexec, fun hne => hx hne ▸ toNat_ushiftRight_one _, hflag ▸ toNat_flagByte_outRight _, hpc, hsame⟩

/-- Settles O43: twice `V[x]`, then bit 7 of the operand as it was before either write. -/
theorem shiftLeftDropsBitSeven : Obligations.ShiftLeftDropsBitSeven := by
  refine fun x => ⟨decode_shl_packXYN x, fun s => ?_⟩
  obtain ⟨t, hexec, hx, hflag, hpc, hsame⟩ := writesFlagged_of_exec_eq (exec_shl x s)
  exact ⟨t, hexec, fun hne => hx hne ▸ toNat_shiftLeft_one _, hflag ▸ toNat_flagByte_outLeft _, hpc, hsame⟩

end Sys2Proof.Machine
end

section
/-! SUPPORT. The random and index family: the tick that a random draw belongs to, writes of `I`, and the
sum an offset jump goes to (46_random_addr.md). -/

namespace Sys2Proof.Machine

/-! ### The random draw (R180) -/

/-- An instruction tick that was taken and latched changed the schedule, the keypad and the draw alone. -/
theorem State.sameExcept_latched (s : State) (es : List Event) (ks : Keys) (r : Byte) :
    SameExcept [.inputs, .keys, .keysPrev, .rngIn] s ({ s with inputs := es }.latch ks r) := by
  intro p hp
  cases p with
  | inputs | keys | keysPrev | rngIn => simp at hp
  | _ => rfl

/-- A scheduled instruction tick of a running core runs the instruction its word decodes to. -/
theorem step_exec_of_scheduled {s : State} {ks : Keys} {r : Byte} {es : List Event} {i : Instr}
    (hlive : s.live) (ha : s.awaiting = none) (hin : s.inputs = .instrTick ks r :: es)
    (hpc : s.pc.toNat + 1 < Config.memSize)
    (hd : decode (s.readByte s.pc.toNat ++ s.readByte (s.pc.toNat + 1)) = .ok i) :
    step s = exec i ({ s with inputs := es }.latch ks r) :=
  stepRunsTheDecodedInstruction s _ ks r i hlive ha (State.takeEvent_cons hin) hpc hd

theorem exec_rnd (x : Reg) (kk : Byte) (s : State) :
    exec (.rnd x kk) s = .next (s.writeV x (s.rngIn &&& kk)).advance := rfl

/-- Settles O44: RND is one write of the masked draw, and the draw it reads is the one that its own tick
latched. -/
theorem randomIsTheTicksDraw : Obligations.RandomIsTheTicksDraw := by
  intro x kk
  have hdecode : decode (packXKK 0xC x kk) = .ok (.rnd x kk) := decode_encode (i := .rnd x kk) rfl
  refine ⟨hdecode, fun s => writes_of_exec_eq (exec_rnd x kk s), fun s ks r es hlive ha hin hpc hword => ?_⟩
  rw [step_exec_of_scheduled hlive ha hin hpc (hword ▸ hdecode)]
  obtain ⟨t, hexec, hx, hnext, hsame⟩ := writes_of_exec_eq (exec_rnd x kk ({ s with inputs := es }.latch ks r))
  refine ⟨t, hexec, hx, hnext, ((s.sameExcept_latched es ks r).append hsame).mono ?_⟩
  simp

/-! ### Writing the index register (R181, R182) -/

theorem State.sameExcept_writeI (s : State) (a : Word) : SameExcept [.i] s (s.writeI a) := by
  intro p hp
  cases p with
  | i => simp at hp
  | _ => rfl

/-- What an instruction that completes with one write of `I` does. -/
theorem writesIndex_of_exec_eq {i : Instr} {s : State} {a : Word}
    (hexec : exec i s = .next (s.writeI a).advance) :
    ∃ t, exec i s = .next t ∧ t.i = a ∧ t.pc = s.pc + 2 ∧ SameExcept [.i, .pc] s t :=
  ⟨_, hexec, rfl, rfl, (s.sameExcept_writeI a).append (s.writeI a).sameExcept_advance⟩

theorem exec_ldI (nnn : Addr) (s : State) :
    exec (.ldI nnn) s = .next (s.writeI (addrOf nnn)).advance := rfl

theorem exec_addI (x : Reg) (s : State) :
    exec (.addI x) s = .next (s.writeI (s.i + s.readV16 x)).advance := rfl

/-- A register keeps its value when it is extended for address arithmetic. -/
theorem toNat_readV16 (s : State) (x : Reg) : (s.readV16 x).toNat = (s.readV x).toNat :=
  BitVec.toNat_setWidth_of_le (by decide)

/-- Settles O45: each of the two is one write of `I`; the sum is a word, so it wraps modulo 65536. -/
theorem indexRegisterWrites : Obligations.IndexRegisterWrites := by
  refine ⟨fun nnn => ⟨decode_encode (i := .ldI nnn) rfl, fun s => ?_⟩,
    fun x => ⟨decode_encode (i := .addI x) rfl, fun s => ?_⟩⟩
  · obtain ⟨t, hexec, hi, hpc, hsame⟩ := writesIndex_of_exec_eq (exec_ldI nnn s)
    exact ⟨t, hexec, hi ▸ toNat_addrOf nnn, hpc, hsame⟩
  · obtain ⟨t, hexec, hi, hpc, hsame⟩ := writesIndex_of_exec_eq (exec_addI x s)
    refine ⟨t, hexec, ?_, hpc, hsame⟩
    rw [hi, BitVec.toNat_add, toNat_readV16]

/-! ### The jump with offset (R183) -/

theorem exec_jpV0 (nnn : Addr) (s : State) :
    exec (.jpV0 nnn) s = .next (s.jump (s.readV16 0 + addrOf nnn)) := rfl

/-- A byte and 12 bits add up to at most `0xFF + 0xFFF`, so the target never wraps. -/
theorem toNat_readV16_add_addrOf (s : State) (x : Reg) (nnn : Addr) :
    (s.readV16 x + addrOf nnn).toNat = (s.readV x).toNat + nnn.toNat := by
  have hx := toNat_readV16_le s x
  have hnnn := toNat_addrOf_le nnn
  rw [BitVec.toNat_add_of_lt (by omega), toNat_readV16, toNat_addrOf]

/-- Settles O46: JP V0 is one jump to the exact sum, which leaves the core running, so with no room at the
target the next tick is the fetch error of any running core. -/
theorem jumpOffsetAddsV0 : Obligations.JumpOffsetAddsV0 := by
  intro nnn
  refine ⟨decode_encode (i := .jpV0 nnn) rfl, fun s => ⟨_, exec_jpV0 nnn s,
    toNat_readV16_add_addrOf s 0 nnn, s.sameExcept_jump _, fun ks r hlive ha hroom => ?_⟩⟩
  rw [← toNat_readV16_add_addrOf] at hroom
  exact instrTick_fetch_error (s := s.jump (s.readV16 0 + addrOf nnn)) ks r hlive ha hroom

end Sys2Proof.Machine
end

section
/-! SUPPORT. The draw family: the state DRW leaves, its frame and its flag by the pixels the sprite covers
(47_draw.md). -/

namespace Sys2Proof.Machine

/-! ### The state a draw leaves (R190) -/

/-- The state DRW completes with: the frame with the sprite XORed in, VF the collision, `PC` moved on. -/
def State.draw (s : State) (x y : Reg) (n : Nat) : State :=
  ({ s with fb := (s.drawn x y n).1 }.writeFlag (s.drawn x y n).2).advance

/-- A sprite whose last byte lies in the memory is drawn; no row at all needs no memory. -/
theorem exec_drw_eq_draw {s : State} (x y : Reg) {n : Nat}
    (h : n = 0 ∨ s.i.toNat + n - 1 < Config.memSize) : exec (.drw x y n) s = .next (s.draw x y n) :=
  exec_drw_ok x y n (h.imp_right fun hlast => by omega)

theorem State.readV_draw_flag (s : State) (x y : Reg) (n : Nat) :
    (s.draw x y n).readV 0xF = flagByte (s.drawn x y n).2 :=
  (State.readV_writeFlag _ 0xF _).trans (if_pos rfl)

theorem State.readV_draw_of_ne (s : State) (x y : Reg) (n : Nat) {z : Reg} (hz : z ≠ 0xF) :
    (s.draw x y n).readV z = s.readV z :=
  (State.readV_writeFlag _ z _).trans (if_neg hz)

/-- A draw leaves every part but VF, `PC` and the frame buffer. -/
theorem State.draw_same (s : State) (x y : Reg) (n : Nat) (p : Part) (hp : p ∉ [Part.v 0xF, .pc])
    (hpixel : ∀ q, p ≠ .pixel q) : p.same s (s.draw x y n) := by
  cases p with
  | v z => exact s.readV_draw_of_ne x y n fun hz => hp (by simp [hz])
  | pc => simp at hp
  | pixel q => exact absurd rfl (hpixel q)
  | _ => rfl

/-! ### The frame and the flag by the covered pixels (R190, R191) -/

/-- A sprite of up to 15 rows names no pixel twice. -/
theorem State.nodup_sprite (s : State) (x y : Reg) {n : Nat} (hn : n < 16) :
    (spritePixels (s.readV x) (s.readV y) 0 (s.mem.readBytes s.i.toNat n)).Nodup :=
  nodup_spritePixels _ _ _ _ (by rw [Memory.length_readBytes]; omega)

section Drawing
variable (s : State) (x y : Reg) {n : Nat} (hn : n < 16)
include hn

theorem State.get_draw_of_covers {p : Pixel} (hp : SpriteCovers s x y n p) :
    (s.draw x y n).fb.get p = !s.fb.get p :=
  ((Frame.flipAll_spec s.fb false _ (s.nodup_sprite x y hn)).1 p).trans
    (if_pos ((mem_spritePixels_iff_covers s x y n p).2 hp))

theorem State.get_draw_of_not_covers {p : Pixel} (hp : ¬ SpriteCovers s x y n p) :
    (s.draw x y n).fb.get p = s.fb.get p :=
  ((Frame.flipAll_spec s.fb false _ (s.nodup_sprite x y hn)).1 p).trans
    (if_neg fun hmem => hp ((mem_spritePixels_iff_covers s x y n p).1 hmem))

theorem State.drawn_collision_iff :
    (s.drawn x y n).2 = true ↔ ∃ p, SpriteCovers s x y n p ∧ s.fb.get p = true := by
  have hflag := (Frame.flipAll_spec s.fb false _ (s.nodup_sprite x y hn)).2
  simpa [State.drawn, mem_spritePixels_iff_covers] using hflag

theorem State.readV_draw_flag_eq_one_iff :
    (s.draw x y n).readV 0xF = 1 ↔ ∃ p, SpriteCovers s x y n p ∧ s.fb.get p = true := by
  rw [← s.drawn_collision_iff x y hn, s.readV_draw_flag]
  cases (s.drawn x y n).2 <;> simp [flagByte]

end Drawing

/-- The flag a draw leaves is 0 or 1. -/
theorem State.readV_draw_flag_zero_or_one (s : State) (x y : Reg) (n : Nat) :
    (s.draw x y n).readV 0xF = 0 ∨ (s.draw x y n).readV 0xF = 1 := by
  rw [s.readV_draw_flag]
  cases (s.drawn x y n).2 with
  | false => exact .inl rfl
  | true => exact .inr rfl

/-- Settles O47: the covered pixels toggle and no other, VF is the collision, and a sprite past the memory
raises with the first bad address. -/
theorem drawTogglesTheSprite : Obligations.DrawTogglesTheSprite := by
  intro x y n hn
  refine ⟨decode_encode (i := .drw x y n) (decide_eq_true hn), fun s => ⟨fun hfits => ?_, fun hpos hbad => ?_⟩⟩
  · refine ⟨_, exec_drw_eq_draw x y hfits, rfl, fun p => s.get_draw_of_covers x y hn,
      fun p => s.get_draw_of_not_covers x y hn, (s.readV_draw_flag_eq_one_iff x y hn).2, fun hoff => ?_,
      s.draw_same x y n⟩
    refine (s.readV_draw_flag_zero_or_one x y n).resolve_right fun hone => ?_
    obtain ⟨p, hcov, hon⟩ := (s.readV_draw_flag_eq_one_iff x y hn).1 hone
    exact Bool.false_ne_true ((hoff p hcov).symm.trans hon)
  · rw [exec_drw_error x y n (by omega)]
    exact raiseIn_haltsWith (.drw x y n) .memory _ s

/-! ### Drawing twice (R192) -/

/-- A draw writes no register but VF, no memory and not `I`, so its sprite stays where it was. -/
theorem spriteCovers_draw_iff (s : State) {x y : Reg} (n : Nat) (hx : x ≠ 0xF) (hy : y ≠ 0xF) (p : Pixel) :
    SpriteCovers (s.draw x y n) x y n p ↔ SpriteCovers s x y n p := by
  simp only [SpriteCovers, s.readV_draw_of_ne x y n hx, s.readV_draw_of_ne x y n hy]
  rfl

section Twice
variable (s : State) {x y : Reg} {n : Nat} (hn : n < 16) (hx : x ≠ 0xF) (hy : y ≠ 0xF)
include hn hx hy

theorem State.fb_draw_draw : ((s.draw x y n).draw x y n).fb = s.fb := by
  refine Frame.ext fun p => ?_
  have hsame := spriteCovers_draw_iff s n hx hy p
  by_cases hp : SpriteCovers s x y n p
  · rw [State.get_draw_of_covers _ x y hn (hsame.2 hp), s.get_draw_of_covers x y hn hp, Bool.not_not]
  · rw [State.get_draw_of_not_covers _ x y hn (mt hsame.1 hp), s.get_draw_of_not_covers x y hn hp]

/-- The pixels the second draw meets on are those the first one turned on: under the sprite on means off
before, and elsewhere nothing changed. -/
theorem State.covered_on_iff_turned_on (p : Pixel) :
    (SpriteCovers (s.draw x y n) x y n p ∧ (s.draw x y n).fb.get p = true) ↔
      (s.fb.get p = false ∧ (s.draw x y n).fb.get p = true) := by
  rw [spriteCovers_draw_iff s n hx hy]
  by_cases hp : SpriteCovers s x y n p
  · simp [s.get_draw_of_covers x y hn hp, hp]
  · simp [s.get_draw_of_not_covers x y hn hp, hp]

end Twice

/-- Settles O48: the second draw covers the same pixels, so it toggles each one back, and it collides where
the first one turned a pixel on. -/
theorem drawIsSelfInverse : Obligations.DrawIsSelfInverse := by
  intro x y n s hn hx hy hfits
  refine ⟨_, _, exec_drw_eq_draw x y hfits, exec_drw_eq_draw (s := s.draw x y n) x y hfits,
    s.fb_draw_draw hn hx hy, State.readV_draw_flag_zero_or_one _ x y n, ?_⟩
  rw [State.readV_draw_flag_eq_one_iff _ x y hn]
  exact exists_congr (s.covered_on_iff_turned_on hn hx hy)

end Sys2Proof.Machine
end

section
/-! SUPPORT. The event queue, one timer tick and the audio output (60_exceptions.md R249 to R252). -/

namespace Sys2Proof.Machine

/-! ### The next event (R250) -/

theorem State.takeEvent_nil {s : State} (h : s.inputs = []) :
    s.takeEvent = (Config.environment s.freeTicks, { s with freeTicks := s.freeTicks + 1 }) := by
  simp [State.takeEvent, h]

/-- Settles O5: the queue has a head, or the environment chooses. -/
theorem eventsComeFromTheEnvironment : Obligations.EventsComeFromTheEnvironment :=
  fun _ => ⟨fun _ _ => State.takeEvent_cons, State.takeEvent_nil⟩

/-! ### One timer tick (R249, R251) -/

section Live
variable {s : State} (hlive : s.live)
include hlive

theorem toNat_timerTick_dt : (timerTick s).dt.toNat = s.dt.toNat - 1 := by
  rw [timerTick_live hlive, toNat_countDown]

theorem toNat_timerTick_st : (timerTick s).st.toNat = s.st.toNat - 1 := by
  rw [timerTick_live hlive, toNat_countDown]

theorem timerTick_fbOut : (timerTick s).fbOut = s.fb := by
  rw [timerTick_live hlive]

/-- A timer tick leaves every part but the two timers and the display output. -/
theorem timerTick_same (p : Part) (hp : p ∉ [Part.dt, .st]) (hframe : ∀ q, p ≠ .framePixel q) :
    p.same s (timerTick s) := by
  rw [timerTick_live hlive]
  cases p with
  | dt | st => simp at hp
  | framePixel q => exact absurd rfl (hframe q)
  | _ => rfl

end Live

/-- Settles O15: a live tick by its parts; a frozen core is left as it is. -/
theorem timerTickCountsDownAndRefreshes : Obligations.TimerTickCountsDownAndRefreshes :=
  fun _ => ⟨fun hlive => ⟨toNat_timerTick_dt hlive, toNat_timerTick_st hlive, timerTick_fbOut hlive,
    timerTick_same hlive⟩, timerTick_frozen⟩

/-- Settles O17: the step is a timer tick of a core that is live, awaiting or not. -/
theorem timersRunDuringAWait : Obligations.TimersRunDuringAWait := by
  intro s x es hlive ha hin
  have hlive' : State.live { s with inputs := es } := hlive
  have hawaiting : (timerTick { s with inputs := es }).awaiting = s.awaiting :=
    timerTick_same hlive' .awaiting (by simp) (by simp)
  have hpc : (timerTick { s with inputs := es }).pc = s.pc := timerTick_same hlive' .pc (by simp) (by simp)
  exact ⟨_, step_cons hin, hawaiting.trans ha, hpc, toNat_timerTick_dt hlive', toNat_timerTick_st hlive'⟩

/-! ### The audio output (R252) -/

theorem State.audioOn_iff (s : State) : s.outputs.audioOn = true ↔ s.st ≠ 0 ∧ s.live := by
  have hlive : s.frozen = false ↔ s.live := by
    rw [← Bool.not_eq_true, State.frozen_iff_not_live, not_not]
  simp only [State.outputs, State.audioOn, Bool.and_eq_true, decide_eq_true_eq, Bool.not_eq_true', hlive]

theorem State.audioOn_iff_of_live {s : State} (hlive : s.live) : s.outputs.audioOn = true ↔ s.st ≠ 0 :=
  s.audioOn_iff.trans (and_iff_left hlive)

theorem State.audioOn_eq_false_of_not_live {s : State} (h : ¬ s.live) : s.outputs.audioOn = false :=
  Bool.eq_false_iff.2 fun hon => h (s.audioOn_iff.1 hon).2

/-- A sound timer of 1 is the last one heard: the tick brings it to 0. -/
theorem timerTick_audioOn_iff {s : State} (hlive : s.live) :
    (timerTick s).outputs.audioOn = true ↔ 1 < s.st.toNat := by
  rw [State.audioOn_iff_of_live (timerTick_keeps_live hlive), BitVec.toNat_ne, toNat_timerTick_st hlive]
  exact Nat.sub_ne_zero_iff_lt

theorem exec_ldST (x : Reg) (s : State) :
    exec (.ldST x) s = .next { s with st := s.readV x }.advance := rfl

theorem audioOn_ldST_iff {s : State} (x : Reg) (hlive : s.live) :
    { s with st := s.readV x }.advance.outputs.audioOn = true ↔ s.readV x ≠ 0 :=
  State.audioOn_iff_of_live (s := { s with st := s.readV x }.advance) hlive

/-- Settles O18: neither LD ST, Vx nor a timer tick ends a live core, so after either the output is
the test of `ST` alone. -/
theorem audioFollowsSoundTimer : Obligations.AudioFollowsSoundTimer :=
  ⟨State.audioOn_iff, fun s x hlive => ⟨_, exec_ldST x s, audioOn_ldST_iff x hlive⟩,
    fun _ => timerTick_audioOn_iff⟩

end Sys2Proof.Machine
end

section
/-! SUPPORT. What a tick that ends in a fatal error leaves, and a halted or stopped core over any run
(60_exceptions.md R241 to R243, R257). -/

namespace Sys2Proof.Machine

/-! ### Fatal errors (R241, R243) -/

theorem State.sameExcept_latch (s : State) (ks : Keys) (r : Byte) :
    SameExcept [.keys, .keysPrev, .rngIn] s (s.latch ks r) := by
  intro p hp
  cases p with
  | keys | keysPrev | rngIn => simp at hp
  | _ => rfl

/-- No instruction raises a fetch error: that one belongs to the fetch before it. -/
theorem Raises.kind_ne_fetch {s : State} {i : Instr} {k : ErrorKind} {e : ErrorInfo} (h : Raises s i k e) :
    k ≠ .fetch := by
  cases h <;> nofun

theorem State.awaitCheck_fault (s : State) (x : Reg) : (s.awaitCheck x).fault = s.fault := by
  rcases hk : s.newKey with _ | k
  · rw [State.awaitCheck_none hk]
  · rw [State.awaitCheck_some hk]
    rfl

/-- A fetch and execution that ends in a fatal error raised it in the state it began in, with the word
at `PC`. -/
theorem fetchExecute_fatal {s t : State} (hs : s.fault = none) (h : fetchExecute s = .next t)
    (hfault : t.fault ≠ none) :
    ∃ k e, t = s.raise k s.fetch e ∧ (s.fetch = none ↔ k = .fetch) := by
  rcases fetchExecute_cases s with ⟨hf, heq⟩ | ⟨w, e, hf, hd, heq⟩ | ⟨w, i, hf, hd, heq⟩
  · cases heq.symm.trans h
    exact ⟨.fetch, .none, by rw [hf], by simp [hf]⟩
  · cases heq.symm.trans h
    exact ⟨.decode, .none, by rw [hf], by simp [hf]⟩
  · rcases exec_inversion (heq.symm.trans h) with ⟨k, e, hr, rfl⟩ | hc
    · exact ⟨k, e, by rw [hf, hr.encode_eq hd], by simp [hf, hr.kind_ne_fetch]⟩
    · exact absurd (hc.fault_eq.trans hs) hfault

theorem instrTick_fatal {s t : State} {ks : Keys} {r : Byte} (hlive : s.live)
    (h : instrTick ks r s = .next t) (hfault : t.fault ≠ none) :
    ∃ k e, t = (s.latch ks r).raise k s.fetch e ∧ (s.fetch = none ↔ k = .fetch) := by
  rcases ha : s.awaiting with _ | x
  · rw [instrTick_running ks r hlive ha] at h
    exact fetchExecute_fatal (s := s.latch ks r) hlive.1 h hfault
  · rw [instrTick_awaiting ks r hlive ha] at h
    cases h
    exact absurd (((s.latch ks r).awaitCheck_fault x).trans hlive.1) hfault

/-- Settles O11: the tick is the latch and then the raise, and each changes only its own parts. -/
theorem fatalErrorsArePrecise : Obligations.FatalErrorsArePrecise := by
  intro s t ks r hlive h hfault
  obtain ⟨k, e, rfl, hword⟩ := instrTick_fatal hlive h hfault
  have hframe := (s.sameExcept_latch ks r).append ((s.latch ks r).sameExcept_raise k s.fetch e)
  exact ⟨hframe.mono (by simp), rfl, rfl, _, rfl, rfl, rfl, hword⟩

/-! ### Halted or stopped (R242, R257) -/

/-- What events can still do to a core that is not live: the `stop` strobe may set `RUN`, and the
event fields move on. -/
def State.FrozenReaches (s t : State) : Prop :=
  ∃ run es n, (run = s.run ∨ run = .stopped) ∧ t = { s with run := run, inputs := es, freeTicks := n }

namespace State.FrozenReaches

theorem refl (s : State) : s.FrozenReaches s := ⟨s.run, s.inputs, s.freeTicks, .inl rfl, rfl⟩

theorem trans {s t u : State} (hst : s.FrozenReaches t) (htu : t.FrozenReaches u) : s.FrozenReaches u := by
  obtain ⟨run, es, n, hrun, rfl⟩ := hst
  obtain ⟨run', es', n', hrun', rfl⟩ := htu
  refine ⟨run', es', n', ?_, rfl⟩
  rcases hrun' with rfl | rfl
  · exact hrun
  · exact .inr rfl

variable {s t : State} (h : s.FrozenReaches t)
include h

theorem sameExcept : SameExcept [.run, .inputs, .freeTicks] s t := by
  obtain ⟨run, es, n, -, rfl⟩ := h
  intro p hp
  cases p with
  | run | inputs | freeTicks => simp at hp
  | _ => rfl

theorem stopped (hs : s.run = .stopped) : t.run = .stopped := by
  obtain ⟨run, es, n, rfl | rfl, rfl⟩ := h
  · exact hs
  · rfl

theorem not_live (hs : ¬ s.live) : ¬ t.live := by
  obtain ⟨run, es, n, rfl | rfl, rfl⟩ := h
  · exact hs
  · exact fun hlive => nomatch hlive.2

end State.FrozenReaches

theorem react_frozen (e : Event) {s : State} (hs : ¬ s.live) :
    ∃ t, react e s = .next t ∧ s.FrozenReaches t := by
  cases e with
  | instrTick ks r => exact ⟨s, instrTick_frozen ks r hs, .refl s⟩
  | timerTick => exact ⟨s, congrArg _ (timerTick_frozen hs), .refl s⟩
  | stop => exact ⟨_, rfl, .stopped, s.inputs, s.freeTicks, .inr rfl, rfl⟩

theorem step_frozen {s : State} (hs : ¬ s.live) : ∃ t, step s = .next t ∧ s.FrozenReaches t := by
  obtain ⟨es, n, htake⟩ := s.takeEvent_eq
  have htaken : s.FrozenReaches s.takeEvent.2 := ⟨s.run, es, n, .inl rfl, htake⟩
  obtain ⟨t, hreact, ht⟩ := react_frozen s.takeEvent.1 (htaken.not_live hs)
  exact ⟨t, hreact, htaken.trans ht⟩

theorem run_frozen (n : Nat) {s : State} (hs : ¬ s.live) :
    ∃ t, Sys2Proof.core.run n s = .next t ∧ s.FrozenReaches t := by
  induction n generalizing s with
  | zero => exact ⟨s, run_zero s, .refl s⟩
  | succ n ih =>
    obtain ⟨t, hstep, hst⟩ := step_frozen hs
    obtain ⟨u, hrun, htu⟩ := ih (hst.not_live hs)
    exact ⟨u, (run_succ n hstep).trans hrun, hst.trans htu⟩

/-- Settles O12, by induction on the run: what one event can do to a frozen core is closed under
further events. -/
theorem haltedOrStoppedForGood : Obligations.HaltedOrStoppedForGood := by
  intro n s hs
  obtain ⟨t, hrun, ht⟩ := run_frozen n hs
  have hfrozen := ht.not_live hs
  exact ⟨t, hrun, ht.sameExcept, ht.stopped, hfrozen, State.audioOn_eq_false_of_not_live hfrozen⟩

theorem State.sameExcept_stop (s : State) (es : List Event) :
    SameExcept [.run, .inputs] s (shutdown { s with inputs := es }) := by
  intro p hp
  cases p with
  | run | inputs => simp at hp
  | _ => rfl

/-- A stopped core keeps `RUN` too. -/
theorem State.FrozenReaches.sameExcept_of_stopped {s t : State} (h : s.FrozenReaches t)
    (hs : s.run = .stopped) : SameExcept [.inputs, .freeTicks] s t := by
  intro p hp
  by_cases hrun : p = .run
  · subst hrun
    exact (h.stopped hs).trans hs.symm
  · exact h.sameExcept p (by simpa [hrun] using hp)

/-- Settles O13: the strobe sets `RUN`, and from then on the core is a stopped one. -/
theorem stopStopsBetweenTicks : Obligations.StopStopsBetweenTicks := by
  intro s es hin
  have hfrozen : ¬ (shutdown { s with inputs := es }).live := fun hlive => nomatch hlive.2
  refine ⟨_, step_cons hin, rfl, rfl, s.sameExcept_stop es, State.audioOn_eq_false_of_not_live hfrozen,
    fun n => ?_⟩
  obtain ⟨u, hrun, hu⟩ := run_frozen n hfrozen
  exact ⟨u, hrun, hu.sameExcept_of_stopped rfl, State.audioOn_eq_false_of_not_live (hu.not_live hfrozen)⟩

end Sys2Proof.Machine
end

section
/-! SUPPORT. The input and timer families: the key wait, the key skips and the timer transfers
(48_input_timer.md). -/

namespace Sys2Proof.Machine

/-! ### The key wait (R202, R203) -/

theorem exec_ldK (x : Reg) (s : State) : exec (.ldK x) s = .next { s with awaiting := some x } := rfl

theorem State.sameExcept_awaiting (s : State) (a : Option Reg) :
    SameExcept [.awaiting] s { s with awaiting := a } := by
  intro p hp
  cases p with
  | awaiting => simp at hp
  | _ => rfl

/-- Settles O50: LD Vx, K writes the mode and not even `PC`. -/
theorem keyWaitBegins : Obligations.KeyWaitBegins :=
  fun x => ⟨decode_encode (i := .ldK x) rfl, fun s => ⟨_, exec_ldK x s, rfl, rfl, s.sameExcept_awaiting _⟩⟩

/-- The state a wait for `V[x]` ends in when key `k` went to pressed. -/
def State.keyTaken (s : State) (x : Reg) (k : Fin 16) : State :=
  { s.writeV x (BitVec.ofNat 8 k.val) with awaiting := none }.advance

theorem State.toNat_readV_keyTaken (s : State) (x : Reg) (k : Fin 16) :
    ((s.keyTaken x k).readV x).toNat = k.val := by
  have hread : (s.keyTaken x k).readV x = BitVec.ofNat 8 k.val := (s.readV_writeV x x _).trans (if_pos rfl)
  rw [hread, BitVec.toNat_ofNat]
  omega

theorem State.sameExcept_keyTaken (s : State) (x : Reg) (k : Fin 16) :
    SameExcept [.v x, .awaiting, .pc] s (s.keyTaken x k) :=
  ((s.sameExcept_writeV x _).append (State.sameExcept_awaiting _ none)).append (State.sameExcept_advance _)

/-- Settles O51: the tick is the latch and then the check, which finds no new key, or the least one. -/
theorem keyWaitEndsOnAPress : Obligations.KeyWaitEndsOnAPress := by
  intro s x ks r hlive ha
  rw [instrTick_awaiting ks r hlive ha]
  refine ⟨fun hnone => ?_, fun k hdown hup hleast => ?_⟩
  · rw [State.awaitCheck_none (s := s.latch ks r) (State.newKey_none.2 hnone)]
    exact ⟨_, rfl, rfl, rfl, s.sameExcept_latch ks r⟩
  · rw [State.awaitCheck_some (s := s.latch ks r) (State.newKey_least hdown hup hleast)]
    refine ⟨_, rfl, rfl, rfl, (s.latch ks r).toNat_readV_keyTaken x k, rfl, rfl, ?_⟩
    exact ((s.sameExcept_latch ks r).append ((s.latch ks r).sameExcept_keyTaken x k)).mono (by simp)

/-! ### The key skips (R200, R201) -/

section KeyIndex
variable {s : State} {x : Reg} {k : Fin 16} (h : (s.readV x).toNat = k.val)
include h

theorem exec_skp_of_readV_eq : exec (.skp x) s = .next (s.skipIf s.keys[k.val]) := by
  rw [exec_skp_ok x (by omega)]
  simp only [h]

theorem exec_sknp_of_readV_eq : exec (.sknp x) s = .next (s.skipIf !s.keys[k.val]) := by
  rw [exec_sknp_ok x (by omega)]
  simp only [h]

end KeyIndex

/-- Settles O49: each is one skip on the key of the snapshot, or raises with the index. -/
theorem keySkips : Obligations.KeySkips := by
  refine fun x => ⟨decode_encode (i := .skp x) rfl, decode_encode (i := .sknp x) rfl, fun s =>
    ⟨fun k hk => ⟨?_, ?_⟩, fun hbad => ⟨?_, ?_⟩⟩⟩
  · exact skips_of_exec_eq (exec_skp_of_readV_eq hk) id id
  · exact skips_of_exec_eq (exec_sknp_of_readV_eq hk) (congrArg not) (congrArg not)
  · rw [exec_skp_error x hbad]
    exact raiseIn_haltsWith (.skp x) .keyIndex _ s
  · rw [exec_sknp_error x hbad]
    exact raiseIn_haltsWith (.sknp x) .keyIndex _ s

/-! ### The timer transfers (R204 to R206) -/

theorem exec_ldFromDT (x : Reg) (s : State) :
    exec (.ldFromDT x) s = .next (s.writeV x s.dt).advance := rfl

theorem exec_ldDT (x : Reg) (s : State) :
    exec (.ldDT x) s = .next { s with dt := s.readV x }.advance := rfl

theorem State.sameExcept_dt (s : State) (b : Byte) : SameExcept [.dt] s { s with dt := b } := by
  intro p hp
  cases p with
  | dt => simp at hp
  | _ => rfl

theorem State.sameExcept_st (s : State) (b : Byte) : SameExcept [.st] s { s with st := b } := by
  intro p hp
  cases p with
  | st => simp at hp
  | _ => rfl

/-- Settles O52: each is one write and the default advance. -/
theorem timerTransfers : Obligations.TimerTransfers := by
  refine fun x => ⟨decode_encode (i := .ldFromDT x) rfl, decode_encode (i := .ldDT x) rfl,
    decode_encode (i := .ldST x) rfl, fun s => ⟨?_, ?_, ?_⟩⟩
  · exact writes_of_exec_eq (exec_ldFromDT x s)
  · exact ⟨_, exec_ldDT x s, rfl, rfl, (s.sameExcept_dt _).append (State.sameExcept_advance _)⟩
  · exact ⟨_, exec_ldST x s, rfl, rfl, (s.sameExcept_st _).append (State.sameExcept_advance _),
      audioOn_ldST_iff x⟩

end Sys2Proof.Machine
end

section
/-! SUPPORT. Decimal digits, block transfers and glyph addresses (49_bcd_memory_glyph.md). -/

namespace Sys2Proof.Machine

/-! ### Decimal digits (R220) -/

/-- The digits in memory, hundreds at the lowest address. -/
theorem Memory.read_writeBytes_decimalDigits (m : Memory) (a : Nat) (b : Byte) :
    ((m.writeBytes a (decimalDigits b)).read a).toNat = b.toNat / 100 ∧
      ((m.writeBytes a (decimalDigits b)).read (a + 1)).toNat = b.toNat / 10 % 10 ∧
      ((m.writeBytes a (decimalDigits b)).read (a + 2)).toNat = b.toNat % 10 := by
  have hdigit (k : Nat) (hk : k < 3) :
      (m.writeBytes a (decimalDigits b)).read (a + k) = (decimalDigits b)[k]'hk :=
    Memory.read_writeBytes_inside m a hk
  have hhundreds := hdigit 0 (by decide)
  rw [Nat.add_zero] at hhundreds
  rw [hhundreds, hdigit 1 (by decide), hdigit 2 (by decide)]
  simp [decimalDigits]

/-- A store inside the memory and the default advance change the bytes stored and `PC`. -/
theorem State.sameExcept_stored (s : State) (a : Nat) (bs : List Byte) :
    SameExcept (.pc :: byteParts a bs.length) s { s with mem := s.mem.writeBytes a bs }.advance :=
  ((s.sameExcept_writeBytes a bs).append (State.sameExcept_advance _)).mono
    fun _ hp => List.perm_append_comm.subset hp

/-- Settles O53: the three bytes are one run of writes from `I` on, checked whole. -/
theorem decimalDigitsStored : Obligations.DecimalDigitsStored := by
  refine fun x => ⟨decode_encode (i := .ldB x) rfl, fun s => ⟨fun hfits => ?_, fun hout => ?_⟩⟩
  · obtain ⟨hhundreds, htens, hunits⟩ := s.mem.read_writeBytes_decimalDigits s.i.toNat (s.readV x)
    exact ⟨_, exec_ldB_ok x hfits, hhundreds, htens, hunits, rfl,
      s.sameExcept_stored _ (decimalDigits (s.readV x))⟩
  · rw [exec_ldB_error x (Nat.lt_succ_of_le hout)]
    exact raiseIn_haltsWith (.ldB x) .memory _ s

/-! ### Block transfers (R221, R222) -/

theorem State.toNat_indexPast (s : State) (x : Reg) :
    (s.indexPast x).toNat = (s.i.toNat + x.val + 1) % 65536 := by
  rw [State.indexPast, BitVec.toNat_add, BitVec.toNat_ofNat, Nat.add_mod_mod, Nat.add_assoc]

/-- A block transfer ends with `I` moved past the block and the default advance. -/
theorem SameExcept.writeI_advance {ps : List Part} {s t : State} (h : SameExcept ps s t) (a : Word) :
    SameExcept (.i :: .pc :: ps) s (t.writeI a).advance :=
  (h.append ((t.sameExcept_writeI a).append (State.sameExcept_advance _))).mono
    fun _ hp => List.perm_append_comm.subset hp

/-- Settles O54: the run of registers is one run of writes from `I` on, checked whole. -/
theorem blockStored : Obligations.BlockStored := by
  refine fun x => ⟨decode_encode (i := .store x) rfl, fun s => ⟨fun hfits => ?_, fun hout => ?_⟩⟩
  · refine ⟨_, exec_store_ok x hfits, fun k hk => s.read_writeBytes_readVs _ (Nat.lt_succ_of_le hk) k.isLt,
      s.toNat_indexPast x, rfl, ?_⟩
    have hframe := s.sameExcept_writeBytes s.i.toNat (s.readVs 0 (x.val + 1))
    rw [State.length_readVs] at hframe
    exact hframe.writeI_advance (s.indexPast x)
  · rw [exec_store_error x hout]
    exact raiseIn_haltsWith (.store x) .memory _ s

theorem v_mem_regPartsTo {x y : Reg} : Part.v y ∈ regPartsTo x ↔ y ≤ x := by
  simp [regPartsTo, mem_allKeys]

/-- A block load changes no part but the registers up to `V[x]`. -/
theorem State.sameExcept_writeVs (s : State) (x : Reg) {bs : List Byte} (hlen : bs.length = x.val + 1) :
    SameExcept (regPartsTo x) s (s.writeVs 0 bs) := by
  obtain ⟨v, hv, habove⟩ := writeVs_leaves_above s x bs hlen
  rw [hv]
  intro p hp
  cases p with
  | v y => exact habove y (not_le.1 fun hle => hp (v_mem_regPartsTo.2 hle))
  | _ => rfl

theorem State.writeVs_pc (s : State) (k : Nat) (bs : List Byte) : (s.writeVs k bs).pc = s.pc := by
  obtain ⟨v, hv⟩ := s.writeVs_eq k bs
  rw [hv]

theorem State.readV_writeVs_readBytes (s : State) (m : Memory) (a : Nat) {x k : Reg} (hk : k ≤ x) :
    (s.writeVs 0 (m.readBytes a (x.val + 1))).readV k = m.read (a + k.val) := by
  have hlt : k.val < x.val + 1 := Nat.lt_succ_of_le hk
  rw [State.readV_writeVs, Memory.length_readBytes, if_pos (by omega), Nat.sub_zero,
    Memory.getD_readBytes m a _ k.val hlt]

/-- Settles O55: the run of bytes from `I` on is read whole and written to the registers in order. -/
theorem blockLoaded : Obligations.BlockLoaded := by
  refine fun x => ⟨decode_encode (i := .load x) rfl, fun s => ⟨fun hfits => ?_, fun hout => ?_⟩⟩
  · have hframe := s.sameExcept_writeVs x (s.mem.length_readBytes s.i.toNat (x.val + 1))
    exact ⟨_, exec_load_ok x hfits, fun k hk => s.readV_writeVs_readBytes s.mem s.i.toNat hk,
      s.toNat_indexPast x, congrArg (· + 2) (s.writeVs_pc 0 _), hframe.writeI_advance (s.indexPast x)⟩
  · rw [exec_load_error x hout]
    exact raiseIn_haltsWith (.load x) .memory _ s

/-- Settles O56: the load reads the bytes the store left, whatever the registers hold in between. -/
theorem storeThenLoadRestores : Obligations.StoreThenLoadRestores := by
  intro x s v' hfits
  refine ⟨_, _, exec_store_ok x hfits, exec_load_ok x hfits, fun k hk => ?_⟩
  exact (State.readV_writeVs_readBytes _ _ s.i.toNat hk).trans
    (s.read_writeBytes_readVs s.i.toNat (Nat.lt_succ_of_le hk) k.isLt)

/-! ### Glyph addresses (R223) -/

theorem toNat_glyphAddr (b : Byte) : (glyphAddr b).toNat = 0x050 + 5 * (b.toNat % 16) := by
  have hnibble : (b &&& 0x0F).toNat = b.toNat % 16 := Nat.and_two_pow_sub_one_eq_mod b.toNat 4
  rw [glyphAddr, hnibble, BitVec.toNat_ofNat, fontBase]
  omega

theorem exec_ldF (x : Reg) (s : State) :
    exec (.ldF x) s = .next (s.writeI (glyphAddr (s.readV x))).advance := rfl

/-- Settles O57: LD F is one write of `I`, and no glyph address reaches past a word. -/
theorem glyphAddressLoaded : Obligations.GlyphAddressLoaded := by
  refine fun x => ⟨decode_encode (i := .ldF x) rfl, fun s => ?_⟩
  obtain ⟨t, hexec, hi, hpc, hsame⟩ := writesIndex_of_exec_eq (exec_ldF x s)
  exact ⟨t, hexec, hi ▸ toNat_glyphAddr _, hpc, hsame⟩

end Sys2Proof.Machine
end

section
/-! SUPPORT. Construction: where the image goes, what every other byte holds, and the load error
(49_bcd_memory_glyph.md R224; 70_reset_and_hazards.md R280, R281). -/

namespace Sys2Proof.Machine

/-! ### The two outcomes of construction (R280, R281) -/

theorem construct_ok {image : List Byte} (start : Word) (h : image.length ≤ maxImage) :
    construct start image =
      .next { State.reset with pc := start, mem := Memory.writeBytes [] Config.progBase image } :=
  if_pos h

theorem construct_error {image : List Byte} (start : Word) (h : maxImage < image.length) :
    construct start image = .fault (.loadError image.length) :=
  if_neg (Nat.not_le_of_lt h)

/-- A machine that construction gives holds the image and nothing else written. -/
theorem mem_of_construct {start : Word} {image : List Byte} {s : State}
    (h : construct start image = .next s) : s.mem = Memory.writeBytes [] Config.progBase image := by
  rcases Nat.lt_or_ge maxImage image.length with hlong | hfits
  · cases (construct_error start hlong).symm.trans h
  · cases (construct_ok start hfits).symm.trans h
    rfl

/-! ### The bytes outside the image (R224, R280) -/

theorem Memory.read_image_outside {image : List Byte} {a : Nat}
    (h : a < Config.progBase ∨ Config.progBase + image.length ≤ a) :
    (Memory.writeBytes [] Config.progBase image).read a = Memory.initial a := by
  rw [Memory.read_writeBytes, if_neg (by omega)]
  rfl

theorem Memory.initial_glyph (d : Nat) : Memory.initial (0x050 + d) = glyphs.getD d 0 := by
  rw [Memory.initial, fontBase, if_pos (Nat.le_add_right _ d), Nat.add_sub_cancel_left]

theorem Memory.initial_eq_zero {a : Nat} (h : a < 0x050 ∨ 0x0A0 ≤ a) : Memory.initial a = 0 := by
  rcases h with hlow | hhigh
  · exact if_neg (Nat.not_le_of_lt hlow)
  · obtain ⟨d, rfl⟩ := Nat.exists_eq_add_of_le (show 0x050 ≤ a by omega)
    have hpast : glyphs.length ≤ d := show 80 ≤ d by omega
    rw [Memory.initial_glyph, List.getD_eq_default _ _ hpast]

theorem Memory.readBytes_congr {m m' : Memory} {a n : Nat} (h : ∀ k < n, m.read (a + k) = m'.read (a + k)) :
    m.readBytes a n = m'.readBytes a n := by
  induction n generalizing a with
  | zero => rfl
  | succ n ih =>
    have htail : ∀ k < n, m.read (a + 1 + k) = m'.read (a + 1 + k) := fun k hk => by
      rw [Nat.add_right_comm]
      exact h (k + 1) (Nat.succ_lt_succ hk)
    rw [Memory.readBytes, Memory.readBytes, ih htail]
    exact congrArg (· :: _) (h 0 n.succ_pos)

/-- Settles O29: the glyph table ends below the image, so it reads as in a memory with no image. -/
theorem glyphTableIsPreloaded : Obligations.GlyphTableIsPreloaded := by
  intro start image s h
  have hbelow : ∀ k < 80, s.mem.read (0x050 + k) = Memory.read [] (0x050 + k) := by
    intro k hk
    rw [mem_of_construct h, Memory.read_image_outside (.inl (by simp only [Config.progBase]; omega))]
    rfl
  rw [Memory.readBytes_congr hbelow]
  decide

/-- Settles O27: the image is one run of writes at 0x200 over the construction contents, and every field
but `PC` and memory is that of reset. -/
theorem constructionPlacesTheImage : Obligations.ConstructionPlacesTheImage := by
  intro start image hlen
  have hbytes {a : Nat} (h : a < 0x200 ∨ 0x200 + image.length ≤ a) := Memory.read_image_outside h
  refine ⟨_, construct_ok start hlen, rfl, fun k hk => ?_, fun d hd => ?_, fun a _ ha => ?_, ?_, rfl, ?_,
    rfl, rfl, rfl, Frame.get_clear, Frame.get_clear, ?_, ?_, rfl, rfl, rfl⟩
  · rw [List.getElem?_eq_getElem hk]
    exact congrArg some (Memory.read_writeBytes_inside [] Config.progBase hk).symm
  · have hd' : d < glyphs.length := hd
    rw [List.getElem?_eq_getElem hd', ← List.getD_eq_getElem _ 0 hd', ← Memory.initial_glyph]
    exact congrArg some (hbytes (.inl (by omega))).symm
  · exact (hbytes (by omega)).trans (Memory.initial_eq_zero (by omega))
  all_goals exact fun k => Vector.getElem_replicate k.isLt

/-- Settles O28: a long image gives no machine; with none, the word at 0x200 is 0x0000, which is no
instruction. -/
theorem loadErrorBeforeAnyTick : Obligations.LoadErrorBeforeAnyTick := by
  refine ⟨fun start image hlen => ⟨construct_error start hlen, rfl⟩, construct_ok 0x200 (Nat.zero_le _),
    fun ks r => ?_⟩
  exact instrTick_decode_error (s := State.reset) (e := .system) ks r ⟨rfl, rfl⟩ rfl (by decide) (by decide)

end Sys2Proof.Machine
end
